-- ==== Sys2Proof/Word.lean ====
section
/-! DEFINITION. The fixed widths of the block: operand bytes, frames and command words (spec 00 R8, R9, 30 R70, R76). -/

namespace Sys2Proof

/-- An operand byte: the width of `cmd_a`, `cmd_b`, `cmd_c` and of every encoder operand (R8 `OPERAND_W`). -/
abbrev Byte := BitVec 8

/-- A command frame, "exactly 16 bits wide" (R6 `FRAME_BITS`, R70); bit 15 is first on the line. -/
abbrev Frame := BitVec 16

/-- A command word of format `CMD26` (R76). -/
abbrev CmdWord := BitVec 26

end Sys2Proof
end

