-- ==== Sys2Proof/Syntax.lean ====
section
/-! DEFINITION. The commands, the pure function and the pseudo-instructions: one constructor per row of
spec/opcode_table.json (spec 30 R84, R85). Numeric arguments of operations are mathematical integers (43 R200). -/

namespace Sys2Proof

/-- One instruction. The first four are the kinds of the command word (R76), `encode` is the pure function (R100), the
rest are the operations of the closed catalogue (R180) and the initialisation entry point (R194). -/
inductive Instr where
  /-- `XMIT frame16` (R120). -/
  | xmit (frame : Frame)
  /-- `SEND opcode8, dataH8, dataL8` (R160). -/
  | send (opcode dataH dataL : Byte)
  /-- `INIT` (R161). -/
  | init
  /-- The reserved command kind 3 (R82). Its 24 ignored bits are no operand. -/
  | reservedCmdKind3
  /-- `ENCODE(opcode, dataH, dataL)` over the non-negative integers (R100, R106). -/
  | encode (opcode dataH dataL : Nat)
  /-- `PLAY` (R182). -/
  | play
  /-- `SETVOL level` (R190). -/
  | setvol (level : Int)
  /-- `PLAYTRACK index` (R188). -/
  | playtrack (index : Int)
  /-- `LOOPTRACK index` (R189). -/
  | looptrack (index : Int)
  /-- `PAUSE` (R183). -/
  | pause
  /-- `STOP` (R184). -/
  | stop
  /-- `PLAYPAUSE` (R185). -/
  | playpause
  /-- `PREV` (R186). -/
  | prev
  /-- `NEXT` (R187). -/
  | next
  /-- `SETMODE LOOP` (R191). -/
  | setmodeLoop
  /-- `SETMODE RANDOM` (R192). -/
  | setmodeRandom
  /-- `RESET`, the explicit re-issue of the Reset frame (R193). -/
  | reset
  /-- `BIND [level]` (R194). -/
  | bind (level : Option Int)
deriving DecidableEq, Repr

end Sys2Proof
end

