-- ==== Sys2Proof/WellFormed.lean ====
section
/-! DEFINITION. Well-formed instructions: what the types do not already say. Port operands are bytes and frames by type
(spec 92 D4), operation arguments are any integers by type (43 R200); what is left is that the operands of `ENCODE`
are bytes, its contract's domain (40 R100). -/

namespace Sys2Proof

/-- A natural number in the byte range of the contract `encode(opcode: byte, dataHigh: byte, dataLow: byte)`. -/
def isByte (n : Nat) : Bool := n < 256

/-- Well-formedness of an instruction: an `ENCODE` has three byte operands. An over-wide `ENCODE` still has the meaning
R106 gives it, but it is outside the contract and has no operand word (log 11). -/
def Instr.wellFormed : Instr → Bool
  | .encode opcode dataH dataL => isByte opcode && isByte dataH && isByte dataL
  | .xmit _ => true
  | .send _ _ _ => true
  | .init => true
  | .reservedCmdKind3 => true
  | .play => true
  | .setvol _ => true
  | .playtrack _ => true
  | .looptrack _ => true
  | .pause => true
  | .stop => true
  | .playpause => true
  | .prev => true
  | .next => true
  | .setmodeLoop => true
  | .setmodeRandom => true
  | .reset => true
  | .bind _ => true

/-- Well-formedness as a proposition. -/
abbrev WellFormed (i : Instr) : Prop := i.wellFormed = true

end Sys2Proof
end

