-- ==== Sys2Proof/Decode.lean ====
section
/-! DEFINITION. The three table formats (spec 30, opcode_table.json): command words `CMD26` (R76), operand triples
`FUNC24` (R100) and frames `F16` (R71, R86). Decoding is total and rejects by name. The encoder stands after it. -/

namespace Sys2Proof

/-- Why a table word has no instruction. -/
inductive DecodeError where
  /-- The number of bits is that of no table format. -/
  | noSuchFormat (nbits : Nat)
  /-- Bits are set above the format's width. -/
  | bitsAboveFormat (nbits w : Nat)
  /-- The frame is in no pinned row: "not in the source's table, not illegal" (R86). -/
  | frameNotInTable (f : Frame)
deriving DecidableEq, Repr

/-- The command a `CMD26` word stands for; every word has one, ignored fields are dropped (R76, R82). -/
def decodeCmd26 (w : CmdWord) : Instr :=
  let kind := w.extractLsb' 24 2
  if kind = 0 then .xmit (w.extractLsb' 0 16)
  else if kind = 1 then .send (w.extractLsb' 16 8) (w.extractLsb' 8 8) (w.extractLsb' 0 8)
  else if kind = 2 then .init
  else .reservedCmdKind3

/-- The `ENCODE` whose operand triple a `FUNC24` word is; every triple is legal (R100, R105). -/
def decodeFunc24 (w : BitVec 24) : Instr :=
  .encode (w.extractLsb' 16 8).toNat (w.extractLsb' 8 8).toNat (w.extractLsb' 0 8).toNat

/-- The operation whose pinned frame pattern `f` matches, by the frame-level decoder of R86. Operations whose triple is
an OPEN field of CFG have no pattern and are never reported (log 12). -/
def decodeF16 (f : Frame) : Except DecodeError Instr :=
  if f = 0x6100 then .ok .play
  else if f.extractLsb' 8 8 = 0x40 then .ok (.setvol (f.extractLsb' 0 8).toNat)
  else if f.extractLsb' 12 4 = 0x3 then .ok (.playtrack (f.extractLsb' 0 12).toNat)
  else .error (.frameNotInTable f)

/-- Decoding of a table word: its format is known by its width, 26 bits (32 in whole bytes), 24 or 16 (log 13). -/
def decode (nbits w : Nat) : Except DecodeError Instr :=
  if nbits = 26 ∨ nbits = 32 then
    if w < 2 ^ 26 then .ok (decodeCmd26 (BitVec.ofNat 26 w)) else .error (.bitsAboveFormat nbits w)
  else if nbits = 24 then
    if w < 2 ^ 24 then .ok (decodeFunc24 (BitVec.ofNat 24 w)) else .error (.bitsAboveFormat nbits w)
  else if nbits = 16 then
    if w < 2 ^ 16 then decodeF16 (BitVec.ofNat 16 w) else .error (.bitsAboveFormat nbits w)
  else .error (.noSuchFormat nbits)

/-- The instruction the decoder reads from a word numbered as spec/opcode_table.json numbers it. -/
def decodeTableWord (nbits w : Nat) : Option Instr := (decode nbits w).toOption

/-- A word of one of the table's formats: how many bits it has in whole bytes, and their value. -/
structure TableWord where
  nbits : Nat
  bits : Nat
deriving DecidableEq, Repr

/-- The command word `{cmd_kind, cmd_a, cmd_b, cmd_c}` (R76). -/
def cmdWord (kind : BitVec 2) (a b c : Byte) : CmdWord := kind ++ a ++ b ++ c

/-- The command word of a port command; ignored fields are sent as 0. The other instructions are no port command. -/
def encodeCmd26 : Instr → Option CmdWord
  | .xmit f => some (cmdWord 0 0 (f.extractLsb' 8 8) (f.extractLsb' 0 8))
  | .send o h l => some (cmdWord 1 o h l)
  | .init => some (cmdWord 2 0 0 0)
  | .reservedCmdKind3 => some (cmdWord 3 0 0 0)
  | .encode _ _ _ | .play | .setvol _ | .playtrack _ | .looptrack _ | .pause | .stop | .playpause | .prev | .next
  | .setmodeLoop | .setmodeRandom | .reset | .bind _ => none

/-- The operand triple of a well-formed `ENCODE` as a `FUNC24` word. -/
def encodeFunc24 (o h l : Nat) : TableWord := ⟨24, o * 65536 + h * 256 + l⟩

/-- The encoder: the table word of an instruction that has one. A volume level has a row word when it fits the eight
bits `v`, a track index when it fits the twelve bits `i`. The operations whose triple is an OPEN field of CFG have no
word of their own in any format, and `BIND` is a sequence of two commands (log 12). -/
def encode : Instr → Option TableWord
  | .encode o h l => if (Instr.encode o h l).wellFormed then some (encodeFunc24 o h l) else none
  | .play => some ⟨16, 0x6100⟩
  | .setvol v => if 0 ≤ v ∧ v < 256 then some ⟨16, 0x4000 + v.toNat⟩ else none
  | .playtrack i => if 0 ≤ i ∧ i < 4096 then some ⟨16, 0x3000 + i.toNat⟩ else none
  | .xmit f => (encodeCmd26 (.xmit f)).map fun w => ⟨32, w.toNat⟩
  | .send o h l => (encodeCmd26 (.send o h l)).map fun w => ⟨32, w.toNat⟩
  | .init => (encodeCmd26 .init).map fun w => ⟨32, w.toNat⟩
  | .reservedCmdKind3 => (encodeCmd26 .reservedCmdKind3).map fun w => ⟨32, w.toNat⟩
  | .looptrack _ | .pause | .stop | .playpause | .prev | .next | .setmodeLoop | .setmodeRandom | .reset
  | .bind _ => none

end Sys2Proof
end

