-- ==== Sys2Proof/Config.lean ====
section
/-! DEFINITION. The configuration record CFG (spec 00 R7, 10 R29): one constant record per device revision, every
field an independent parameter (R2). Fields the spec leaves OPEN have no built-in value: the record is an argument of
every statement, and the record of the reset state takes them from an opaque constant. -/

namespace Sys2Proof

/-- `LAYOUT`: which of the two packing formulas of R72 the revision uses. -/
inductive Layout where
  | nested
  | flatMasked
deriving DecidableEq, Repr, Inhabited

/-- `SETTLE_US`: one of the two values of R7 (D20). -/
inductive Settle where
  | us5000
  | us6000
deriving DecidableEq, Repr, Inhabited

/-- `VOL_MAX`: one of the two values of R7 (D22). -/
inductive VolMax where
  | ten
  | thirty
deriving DecidableEq, Repr, Inhabited

/-- `TRACK_CLAMP` (R7, D23). -/
inductive TrackClamp where
  | unclamped
  | clamped
deriving DecidableEq, Repr, Inhabited

/-- An (opcode, dataH, dataL) triple: the operands of one `SEND`. -/
structure Triple where
  opcode : Byte
  dataH : Byte
  dataL : Byte
deriving DecidableEq, Repr, Inhabited

/-- `OPTABLE`: one triple for each argument-less operation (R7, R199). -/
structure OpTable where
  play : Triple
  pause : Triple
  stop : Triple
  playpause : Triple
  prev : Triple
  next : Triple
  modeLoop : Triple
  modeRandom : Triple
deriving DecidableEq, Repr, Inhabited

/-- The configuration record CFG. `initSettleExtra` is `INIT_SETTLE_US` minus 20000, so that the type is the range
20000 to 50000 of R7. `VOL_MIN` is fixed 0 (D22) and is a constant of the front-end. -/
structure Cfg where
  layout : Layout
  settle : Settle
  initSettleExtra : Fin 30001
  volMax : VolMax
  trackClamp : TrackClamp
  trackMax : Nat
  optable : OpTable
  opSetvol : Byte
  opTrack : Byte
  loopBit : Fin 16
  resetTriple : Triple
deriving DecidableEq, Repr, Inhabited

/-- DESIGN CHOICE (log 1; safe): the revision of the instance that comes out of reset. Nothing can be proved about any
of its fields, which is what OPEN means in R7. -/
opaque Config.openCfg : Cfg

/-- The triple of Play, the one argument-less triple the spec gives (R182). -/
def Config.playTriple : Triple := ⟨0x06, 0x01, 0x00⟩

/-- A triple's frame bit by bit, the same for both layouts (R103). -/
def tripleBits (t : Triple) : Frame :=
  (t.opcode.extractLsb' 0 4 ||| t.dataH.extractLsb' 4 4) ++ t.dataH.extractLsb' 0 4 ++ t.dataL

/-- The table with two different playlist frames (R199): itself where its two modes have different frames, as in every
legal configuration; otherwise the random mode's frame becomes the loop mode's with its last bit inverted (log 3). -/
def OpTable.withModesApart (o : OpTable) : OpTable :=
  if tripleBits o.modeLoop = tripleBits o.modeRandom then
    { o with modeRandom := { o.modeLoop with dataL := o.modeLoop.dataL ^^^ 1 } }
  else o

/-- The configuration after reset: the open fields from `openCfg`, the three pinned entries of R7 at their documented
values (log 2), and the two playlist frames different, as R199 fixes (log 3). -/
def Config.cfg : Cfg :=
  { Config.openCfg with
    optable := { Config.openCfg.optable.withModesApart with play := Config.playTriple }
    opSetvol := 0x04
    opTrack := 0x03 }

end Sys2Proof
end

