-- ==== Sys2Proof/Machine/State.lean ====
section
/-! DEFINITION. The machine's state as plain data: the block's six registers (spec 10 R22 to R27), its configuration
record (R29), the observer's line history (R36) and the host's side of the command port (R35, 30 R84). -/

namespace Sys2Proof.Machine

/-- A logic level of the line: 0 is low, 1 is high (R9, R10). -/
inductive Level where
  | low
  | high
deriving DecidableEq, Repr

/-- `PHASE`: the sequencer's position in the algorithm of a command (R26). -/
inductive Phase where
  | idle
  | start
  | bitHi
  | bitLo
  | settle
  | initWait
deriving DecidableEq, Repr

/-- The block's whole state S = (LINE, PHASE, TIMER, SHREG, BITCNT, INITSEQ) (R22 to R27). -/
structure Regs where
  /-- `LINE`: the level driven on the `line` output (R22). -/
  line : Level
  /-- `PHASE` (R26). -/
  phase : Phase
  /-- `TIMER`: ticks the phase still has to last, counting the current one (R25). -/
  timer : BitVec 16
  /-- `SHREG`: the working copy of the frame (R23). -/
  shreg : Frame
  /-- `BITCNT`: bit slots of the frame not yet finished (R24). -/
  bitcnt : BitVec 5
  /-- `INITSEQ`: the frame in flight is the Reset frame of an `INIT` (R27). -/
  initseq : Bool
deriving DecidableEq, Repr

/-- The reset state of the block (R34, R250). -/
def Regs.reset : Regs :=
  { line := .high, phase := .idle, timer := 0, shreg := 0, bitcnt := 0, initseq := false }

/-- A line event: W(level), a write of the line, or D(us), a delay of so many microseconds (R10 to R12). -/
inductive Event where
  | w (level : Level)
  | d (us : Nat)
deriving DecidableEq, Repr

/-- An event of the line-event trace with the tick of it: for W(level) the tick from which the line has that level, for
D(us) the tick at which the delay is over (R12; log 8). -/
structure TraceEntry where
  tick : Nat
  event : Event
deriving DecidableEq, Repr

/-- The input ports as the host drives them on one tick (R35). -/
structure PortSample where
  rst : Bool
  cmdValid : Bool
  cmdKind : BitVec 2
  cmdA : Byte
  cmdB : Byte
  cmdC : Byte
deriving DecidableEq, Repr

/-- One line of what the host does (log 5, 6). -/
inductive ScriptLine where
  /-- Drive the ports so for one tick, whatever the block does with it. -/
  | sample (p : PortSample)
  /-- A program line (R84): presented from the first tick it is the head, held until the block takes it (R264). -/
  | line (i : Instr)
  /-- `WAIT us` (R84): present nothing on `us` ticks on which the block is ready. -/
  | wait (us : Nat)
  /-- Present nothing on this many ticks, ready or not: that many samples with `rst` and `cmd_valid` 0. -/
  | quiet (ticks : Nat)
deriving DecidableEq, Repr

/-- The machine's faults: there are none. "The block raises no exception of any kind"; the step function "has no fault
outcome and no stuck state" (R220). The empty type says so: no meaning and no step can stop with a fault. Safe. -/
inductive Fault where
deriving DecidableEq, Repr

/-- The reasons a step can be refused. -/
inductive Refusal where
  /-- Raised by an arm of `exec` whose instruction has no meaning yet; no arm does. Safe: nothing can be proved of a
  refused instruction. -/
  | notModelled (mnemonic : String)
deriving DecidableEq, Repr

/-- The state of the machine. -/
structure State where
  /-- The block's registers S. -/
  regs : Regs
  /-- The constant configuration record CFG, the argument of the step function (R29; log 1). No step writes it. -/
  cfg : Cfg
  /-- The tick number t of the state S_t (spec 41 part 2); it stamps the trace and nothing else reads it (log 8). -/
  now : Nat
  /-- The line-event trace, every W and D event, oldest first: a write-only history, no rule reads it (R12, R36;
  log 8). -/
  trace : List TraceEntry
  /-- The frames `ENCODE` has returned to its caller, oldest first; write-only (R100; log 10). -/
  results : List Frame
  /-- What the host does at the command port from this tick on; when it is empty the host presents nothing (log 5). -/
  script : List ScriptLine
deriving DecidableEq, Repr

/-- The machine right after hardware reset (R34), with nothing observed yet and a host that presents nothing. -/
def State.reset : State :=
  { regs := Regs.reset, cfg := Config.cfg, now := 0, trace := [], results := [], script := [] }

end Sys2Proof.Machine
end

