-- ==== Sys2Proof/Machine/Flags.lean ====
section
/-! DEFINITION. The block's outputs and its one status (spec 10 R28, R35, 41 R142): functions of the state alone. The
block has no condition code, carry, zero or error flag (R28). -/

namespace Sys2Proof.Machine

/-- `BUSY`: 1 when `PHASE` is not `IDLE` (R28). -/
def Regs.busy (r : Regs) : Bool := r.phase ≠ .idle

/-- `cmd_ready`, the complement of `BUSY` (R28, R142). -/
def Regs.cmdReady (r : Regs) : Bool := !r.busy

/-- The output ports (R35). -/
structure Outputs where
  line : Level
  busy : Bool
  cmdReady : Bool
deriving DecidableEq, Repr

/-- The output ports in a state (R142). -/
def State.outputs (s : State) : Outputs := ⟨s.regs.line, s.regs.busy, s.regs.cmdReady⟩

end Sys2Proof.Machine
end

