-- ==== Sys2Proof/Machine/Timing.lean ====
section
/-! DEFINITION. Every duration of the block in microseconds, which is ticks (spec 00 R6 to R8, 70 R259), and which of them
the delay of each phase has. -/

namespace Sys2Proof

/-- `SETTLE_US` (R7). -/
def Cfg.settleUs (c : Cfg) : Nat :=
  match c.settle with
  | .us5000 => 5000
  | .us6000 => 6000

/-- `INIT_SETTLE_US`, 20000 to 50000 (R7). -/
def Cfg.initSettleUs (c : Cfg) : Nat := 20000 + c.initSettleExtra.val

namespace Machine

/-- `START_LOW_US` (R6, R121). -/
def startLowUs : Nat := 5000

/-- `T_LONG_US` (R6). -/
def longUs : Nat := 600

/-- `T_SHORT_US` (R6). -/
def shortUs : Nat := 200

/-- The high phase of the symbol of a bit (R74, R128). -/
def hiUs (b : Bool) : Nat := if b then longUs else shortUs

/-- The low phase of the symbol of a bit (R74, R128). -/
def loUs (b : Bool) : Nat := if b then shortUs else longUs

/-- The current top bit of the working copy (R122). -/
def topBit (f : Frame) : Bool := f.getLsbD 15

/-- The delay that the current phase is: `delay(n)` of the event level is this n (R121 to R127, R161). `IDLE` is no
delay. -/
def delayUs (c : Cfg) (r : Regs) : Nat :=
  match r.phase with
  | .idle => 0
  | .start => startLowUs
  | .bitHi => hiUs (topBit r.shreg)
  | .bitLo => loUs (topBit r.shreg)
  | .settle => c.settleUs
  | .initWait => c.initSettleUs

/-- The ticks a transmission keeps the block busy: start condition, sixteen bit slots, settle (R129). -/
def xmitUs (c : Cfg) : Nat := startLowUs + 16 * (longUs + shortUs) + c.settleUs

/-- The ticks an `INIT` keeps the block busy (R162). -/
def initUs (c : Cfg) : Nat := xmitUs c + c.initSettleUs

end Machine

end Sys2Proof
end

