-- ==== Sys2Proof/Machine/Operands.lean ====
section
/-! DEFINITION. The combinational part: the Frame Encoder (spec 40), frame field extraction (30 R86), the clamps and
operand assembly of the operation front-end (43 R195 to R198, 30 R77, R78), and the frame of every operation. -/

namespace Sys2Proof.Machine

/-- `ENCODE` over the non-negative integers: the formula of the revision's layout (R101, R102, R106). -/
def encodeFrame (layout : Layout) (opcode dataH dataL : Nat) : Frame :=
  match layout with
  | .nested =>
    let t1 := opcode <<< 4
    let t2 := t1 ||| dataH
    let t3 := t2 <<< 8
    let t4 := t3 ||| dataL
    BitVec.ofNat 16 (t4 &&& 0xFFFF)
  | .flatMasked => BitVec.ofNat 16 (((opcode <<< 12) ||| (dataH <<< 8) ||| dataL) &&& 0xFFFF)

/-- `ENCODE` of three operand bytes (R100). -/
def encodeBytes (layout : Layout) (opcode dataH dataL : Byte) : Frame :=
  encodeFrame layout opcode.toNat dataH.toNat dataL.toNat

/-- `ENCODE` of a configured triple. -/
def tripleFrame (c : Cfg) (t : Triple) : Frame := encodeBytes c.layout t.opcode t.dataH t.dataL

/-- `OPC(f) = (f >> 12) & 0xF` (R86). -/
def frameOpc (f : Frame) : BitVec 4 := f.extractLsb' 12 4

/-- `DH(f) = (f >> 8) & 0xF` (R86). -/
def frameDh (f : Frame) : BitVec 4 := f.extractLsb' 8 4

/-- `DL(f) = f & 0xFF` (R86). -/
def frameDl (f : Frame) : Byte := f.extractLsb' 0 8

/-- `clamp(v, lo, hi)` (R13, R195). -/
def clamp (v lo hi : Int) : Int := if v < lo then lo else if hi < v then hi else v

/-- `VOL_MIN`, 0 in both observed ranges (R7, D22). -/
def volMin : Int := 0

/-- `VOL_MAX` (R196). -/
def volMax (c : Cfg) : Int :=
  match c.volMax with
  | .ten => 10
  | .thirty => 30

/-- The volume clamp policy (R196). -/
def clampVolume (c : Cfg) (v : Int) : Int := clamp v volMin (volMax c)

/-- The track clamp policy `trackclamp` (R197). -/
def clampTrack (c : Cfg) (i : Int) : Int :=
  match c.trackClamp with
  | .clamped => clamp i 0 c.trackMax
  | .unclamped => i

/-- `(i >> 8) & 0xFF` of any integer (R13, R198). -/
def indexHigh (i : Int) : Byte := BitVec.ofInt 8 (i / 256)

/-- `i & 0xFF` of any integer (R13, R198). -/
def indexLow (i : Int) : Byte := BitVec.ofInt 8 i

/-- The operands of `SETVOL v` (R190, R78). -/
def volumeTriple (c : Cfg) (v : Int) : Triple := ⟨c.opSetvol, 0x00, BitVec.ofInt 8 (clampVolume c v)⟩

/-- The operands of `PLAYTRACK i` (R188, R77). -/
def trackTriple (c : Cfg) (i : Int) : Triple :=
  ⟨c.opTrack, indexHigh (clampTrack c i), indexLow (clampTrack c i)⟩

/-- The frame of `LOOPTRACK i`: the once frame with the mode bit inverted (R189, D24; log 15). -/
def loopFrame (c : Cfg) (i : Int) : Frame := tripleFrame c (trackTriple c i) ^^^ (1#16 <<< c.loopBit.val)

/-- The Reset frame `ENCODE(CFG.RESET_TRIPLE)` (R161). -/
def resetFrame (c : Cfg) : Frame := tripleFrame c c.resetTriple

end Sys2Proof.Machine
end

