-- ==== Sys2Proof/Machine/Ops.lean ====
section
/-! DEFINITION. The shared operations: the line write, the sequencer's tick (spec 41 R134 to R143, 42 R164), the
acceptance of a command, the hardware reset (70 R250), and the host's side of the command port (10 R35, 30 R84). -/

namespace Sys2Proof.Machine

/-- One microsecond passes: the state becomes S_{t+1}. -/
def State.clock (s : State) : State := { s with now := s.now + 1 }

/-- An event is appended to the line-event trace (R12, R36). -/
def State.record (e : Event) (s : State) : State := { s with trace := s.trace ++ [⟨s.now, e⟩] }

/-- `writeLine(v)`: sets `LINE`, takes no time, appends W(v) to the trace (R10). -/
def State.writeLine (v : Level) (s : State) : State := { s with regs := { s.regs with line := v } }.record (.w v)

/-- The end of `delay(n)`, n the delay of the phase that ends: D(n) is appended to the trace (R11, R164). The n ticks of
it are the states of the phase: `enterPhase` loads n and `countdown` lets all but one of them pass. -/
def State.endDelay (s : State) : State := s.record (.d (delayUs s.cfg s.regs))

/-- Entry into a phase that lasts `us` ticks: `PHASE` and `TIMER` are loaded (R25, R26). -/
def State.enterPhase (p : Phase) (us : Nat) (s : State) : State :=
  { s with regs := { s.regs with phase := p, timer := BitVec.ofNat 16 us } }

/-- The shift at the end of a bit slot: `SHREG` moves left by one, 0 enters at bit 0 (R23, R125). -/
def State.shift (s : State) : State := { s with regs := { s.regs with shreg := s.regs.shreg <<< 1 } }

/-- Load of `BITCNT` (R24). -/
def State.setBitcnt (n : BitVec 5) (s : State) : State := { s with regs := { s.regs with bitcnt := n } }

/-- Load of `INITSEQ` (R27). -/
def State.setInitseq (b : Bool) (s : State) : State := { s with regs := { s.regs with initseq := b } }

/-- Countdown: one microsecond of a delay (R135). -/
def countdown (s : State) : State := { s with regs := { s.regs with timer := s.regs.timer - 1 } }

/-- End of `START` (R136). -/
def endStart (s : State) : State :=
  (s.writeLine .high).enterPhase .bitHi (hiUs (topBit s.regs.shreg))

/-- End of `BIT_HI` (R137). -/
def endBitHi (s : State) : State :=
  (s.writeLine .low).enterPhase .bitLo (loUs (topBit s.regs.shreg))

/-- End of `BIT_LO`: the shift first, then the next bit slot (R138) or, after the last bit, the idle restore (R139). -/
def endBitLo (s : State) : State :=
  let n := s.shift.writeLine .high
  if 1 < s.regs.bitcnt then
    (n.setBitcnt (s.regs.bitcnt - 1)).enterPhase .bitHi (hiUs (topBit n.regs.shreg))
  else
    (n.setBitcnt 0).enterPhase .settle s.cfg.settleUs

/-- End of `SETTLE`: of a plain transmission (R140), or of the Reset frame of an `INIT` (R164). -/
def endSettle (s : State) : State :=
  if s.regs.initseq then s.enterPhase .initWait s.cfg.initSettleUs else s.enterPhase .idle 0

/-- End of `INIT_WAIT` (R164). -/
def endInitWait (s : State) : State := (s.enterPhase .idle 0).setInitseq false

/-- The phase change on the tick at which `TIMER` is 1 (R143): the delay is over, then the phase's own end. -/
def endPhase (s : State) : State :=
  match s.regs.phase with
  | .idle => s
  | .start => endStart s.endDelay
  | .bitHi => endBitHi s.endDelay
  | .bitLo => endBitLo s.endDelay
  | .settle => endSettle s.endDelay
  | .initWait => endInitWait s.endDelay

/-- The sequencer's own progress with no command taken: `IDLE` stays (R141), otherwise countdown or phase change. -/
def sequence (s : State) : State :=
  if s.regs.phase = .idle then s
  else if 1 < s.regs.timer then countdown s
  else endPhase s

/-- One tick on which no command is taken. -/
def tick (s : State) : State := sequence s.clock

/-- Start of a transmission: frame loaded, line low, start condition (R134, R143). -/
def beginFrame (frame : Frame) (isInit : Bool) (s : State) : State :=
  { s.writeLine .low with
    regs :=
      { line := .low, phase := .start, timer := BitVec.ofNat 16 startLowUs, shreg := frame, bitcnt := 16,
        initseq := isInit } }

/-- The tick on which a command that sends `frame` is on the port: accepted in `IDLE` (R134, R160, R167), not looked at
otherwise (R166). -/
def presentFrame (frame : Frame) (s : State) : State :=
  if s.regs.phase = .idle then beginFrame frame false s.clock else tick s

/-- The tick on which `INIT` is on the port; step (a) and the start condition fall on the same tick (R164, R165). -/
def presentInit (s : State) : State :=
  if s.regs.phase = .idle then beginFrame (resetFrame s.cfg) true (s.clock.writeLine .high) else tick s

/-- The hardware reset on the tick it is sampled: the reset state whatever was going on; the trace gets W(1) only when
the line was low; a delay that is cut is not over and leaves no D (R250, R251). The configuration is constant and unaffected. -/
def hardwareReset (s : State) : State :=
  let t := s.clock
  { (if s.regs.line = .low then t.writeLine .high else t) with regs := Regs.reset }

/-- The command word on the port (R76). -/
def PortSample.word (p : PortSample) : CmdWord := cmdWord p.cmdKind p.cmdA p.cmdB p.cmdC

/-- A wait of 0 takes no tick. -/
def skipWaits : List ScriptLine → List ScriptLine
  | .wait 0 :: rest => skipWaits rest
  | .quiet 0 :: rest => skipWaits rest
  | l => l

/-- `rst` as sampled on this tick. -/
def State.rstNow (s : State) : Bool :=
  match skipWaits s.script with
  | .sample p :: _ => p.rst
  | _ => false

/-- The command the host presents on this tick, decoded. A program line is presented while the block is busy too, but
the port is not looked at then (R166), so it counts as presented in `IDLE` only. -/
def State.presented (s : State) : Option Instr :=
  match skipWaits s.script with
  | .sample p :: _ => if p.cmdValid then some (decodeCmd26 p.word) else none
  | .line i :: _ => if s.regs.phase = .idle then some i else none
  | _ => none

/-- What the host does after this tick: a sample is over, a program line or a wait goes on while the block is busy. -/
def State.scriptNext (s : State) : List ScriptLine :=
  match skipWaits s.script with
  | .sample _ :: rest => rest
  | .line i :: rest => if s.regs.phase = .idle then rest else .line i :: rest
  | .wait us :: rest => if s.regs.phase = .idle then .wait (us - 1) :: rest else .wait us :: rest
  | .quiet ticks :: rest => .quiet (ticks - 1) :: rest
  | [] => []

/-- The host has moved on to its next tick. -/
def State.advanceScript (s : State) : State := { s with script := s.scriptNext }

/-- The script line by which the host presents a table word: a command word is put on the port for one tick, any other
word is a program line. -/
def fetchLine (nbits w : Nat) : Option ScriptLine :=
  match decodeTableWord nbits w with
  | none => none
  | some i =>
    if nbits = 26 ∨ nbits = 32 then
      let c := BitVec.ofNat 26 w
      some (.sample ⟨false, true, c.extractLsb' 24 2, c.extractLsb' 16 8, c.extractLsb' 8 8, c.extractLsb' 0 8⟩)
    else some (.line i)

end Sys2Proof.Machine
end

