-- ==== Sys2Proof/Machine/Commands.lean ====
section
/-! DEFINITION. The meanings of the port commands (spec 41 R134, 42 R160 to R169, 30 R82) and of the pure function
`ENCODE` (40 R100). The meaning of a command is the tick on which the host presents it: taken in `IDLE`, not looked at
while busy, when the tick is the sequencer's own (42 R166; log 16). -/

namespace Sys2Proof.Machine

/-- `XMIT frame` (R120, R134). -/
def execXmit (frame : Frame) (s : State) : Host.Outcome State Fault Refusal := .next (presentFrame frame s)

/-- `SEND opcode, dataH, dataL` = `XMIT(ENCODE(opcode, dataH, dataL))` (R160). -/
def execSend (opcode dataH dataL : Byte) (s : State) : Host.Outcome State Fault Refusal :=
  .next (presentFrame (encodeBytes s.cfg.layout opcode dataH dataL) s)

/-- `INIT` (R161, R164). -/
def execInit (s : State) : Host.Outcome State Fault Refusal := .next (presentInit s)

/-- The reserved command kind: consumed with no effect, so the tick is that of no command (R82, R141, R143; log 9). -/
def execReservedCmdKind3 (s : State) : Host.Outcome State Fault Refusal := .next (tick s)

/-- `ENCODE`: returns its frame to the caller; combinational, so no tick passes and the block is untouched (R100, R104;
log 10). -/
def execEncode (opcode dataH dataL : Nat) (s : State) : Host.Outcome State Fault Refusal :=
  .next { s with results := s.results ++ [encodeFrame s.cfg.layout opcode dataH dataL] }

end Sys2Proof.Machine
end

