-- ==== Sys2Proof/Machine/Operations.lean ====
section
/-! DEFINITION. The meanings of the operations of the closed catalogue and of `BIND` (spec 43): each operation is the
one `SEND` (for `LOOPTRACK` the one `XMIT`) it expands to (R181, 30 R85). -/

namespace Sys2Proof.Machine

/-- `PLAY` (R182): the triple is `CFG.OPTABLE(PLAY)` (log 2). -/
def execPlay (s : State) : Host.Outcome State Fault Refusal :=
  .next (presentFrame (tripleFrame s.cfg s.cfg.optable.play) s)

/-- `SETVOL level` (R190): clamped before it is encoded. -/
def execSetvol (level : Int) (s : State) : Host.Outcome State Fault Refusal :=
  .next (presentFrame (tripleFrame s.cfg (volumeTriple s.cfg level)) s)

/-- `PLAYTRACK index` (R188). -/
def execPlaytrack (index : Int) (s : State) : Host.Outcome State Fault Refusal :=
  .next (presentFrame (tripleFrame s.cfg (trackTriple s.cfg index)) s)

/-- `LOOPTRACK index` (R189; log 15). -/
def execLooptrack (index : Int) (s : State) : Host.Outcome State Fault Refusal :=
  .next (presentFrame (loopFrame s.cfg index) s)

/-- `PAUSE` (R183). -/
def execPause (s : State) : Host.Outcome State Fault Refusal :=
  .next (presentFrame (tripleFrame s.cfg s.cfg.optable.pause) s)

/-- `STOP` (R184). -/
def execStop (s : State) : Host.Outcome State Fault Refusal :=
  .next (presentFrame (tripleFrame s.cfg s.cfg.optable.stop) s)

/-- `PLAYPAUSE` (R185): the same frame every time, the block holds no play or pause state. -/
def execPlaypause (s : State) : Host.Outcome State Fault Refusal :=
  .next (presentFrame (tripleFrame s.cfg s.cfg.optable.playpause) s)

/-- `PREV` (R186). -/
def execPrev (s : State) : Host.Outcome State Fault Refusal :=
  .next (presentFrame (tripleFrame s.cfg s.cfg.optable.prev) s)

/-- `NEXT` (R187). -/
def execNext (s : State) : Host.Outcome State Fault Refusal :=
  .next (presentFrame (tripleFrame s.cfg s.cfg.optable.next) s)

/-- `SETMODE LOOP` (R191). -/
def execSetmodeLoop (s : State) : Host.Outcome State Fault Refusal :=
  .next (presentFrame (tripleFrame s.cfg s.cfg.optable.modeLoop) s)

/-- `SETMODE RANDOM` (R192). -/
def execSetmodeRandom (s : State) : Host.Outcome State Fault Refusal :=
  .next (presentFrame (tripleFrame s.cfg s.cfg.optable.modeRandom) s)

/-- `RESET` (R193): the Reset frame alone, without the wait of `INIT`; it resets nothing inside the block. -/
def execReset (s : State) : Host.Outcome State Fault Refusal := .next (presentFrame (resetFrame s.cfg) s)

/-- What `BIND [level]` leaves for the host to present after its `INIT` (R194). -/
def bindTail : Option Int → List ScriptLine
  | none => []
  | some level => [.line (.setvol level)]

/-- `BIND [level]` (R194): `INIT`, and then, when a level is given, `SETVOL level`, which the host presents before
anything else it has to do (log 17). While the block is busy nothing of it is taken. -/
def execBind (level : Option Int) (s : State) : Host.Outcome State Fault Refusal :=
  if s.regs.phase = .idle then .next (presentInit { s with script := bindTail level ++ s.script })
  else .next (tick s)

end Sys2Proof.Machine
end

