-- ==== Sys2Proof/Machine/Dispatch.lean ====
section
/-! DEFINITION. The dispatch of an instruction to its meaning: one arm per constructor. -/

namespace Sys2Proof.Machine

def exec (i : Instr) (s : State) : Host.Outcome State Fault Refusal :=
  match i with
  | .xmit frame => Sys2Proof.Machine.execXmit frame s
  | .send opcode dataH dataL => Sys2Proof.Machine.execSend opcode dataH dataL s
  | .init => Sys2Proof.Machine.execInit s
  | .reservedCmdKind3 => Sys2Proof.Machine.execReservedCmdKind3 s
  | .encode opcode dataH dataL => Sys2Proof.Machine.execEncode opcode dataH dataL s
  | .play => Sys2Proof.Machine.execPlay s
  | .setvol level => Sys2Proof.Machine.execSetvol level s
  | .playtrack index => Sys2Proof.Machine.execPlaytrack index s
  | .looptrack index => Sys2Proof.Machine.execLooptrack index s
  | .pause => Sys2Proof.Machine.execPause s
  | .stop => Sys2Proof.Machine.execStop s
  | .playpause => Sys2Proof.Machine.execPlaypause s
  | .prev => Sys2Proof.Machine.execPrev s
  | .next => Sys2Proof.Machine.execNext s
  | .setmodeLoop => Sys2Proof.Machine.execSetmodeLoop s
  | .setmodeRandom => Sys2Proof.Machine.execSetmodeRandom s
  | .reset => Sys2Proof.Machine.execReset s
  | .bind level => Sys2Proof.Machine.execBind level s

end Sys2Proof.Machine
end

