-- ==== Sys2Proof/Machine/Step.lean ====
section
/-! DEFINITION. One step: the ports are sampled, hardware reset first, then the command presented, if any (spec 41 R143,
60 R226). A step is one tick of one microsecond, but for a program line `ENCODE`, which takes none (log 4, 10). -/

namespace Sys2Proof.Machine

/-- One step of the machine. -/
def step (s : State) : Host.Outcome State Fault Refusal :=
  if s.rstNow then .next (hardwareReset s.advanceScript)
  else
    match s.presented with
    | none => .next (tick s.advanceScript)
    | some i => exec i s.advanceScript

/-- `s` with the instruction of a table word as the next thing the host presents (log 7). A word the decoder refuses
is no instruction and leaves the state as it is. -/
def State.withFetchWord (s : State) (nbits w : Nat) : State :=
  match fetchLine nbits w with
  | none => s
  | some l => { s with script := l :: s.script }

end Sys2Proof.Machine
end

