-- ==== Sys2Proof/Machine/Events.lean ====
section
/-! DEFINITION. The event level, which is normative (spec 00 R16): every command as its sequence of `writeLine` and
`delay` calls (41 part 1, 42 R161), the waveform of a trace (00 R12), and the reference demodulator (30 R87). -/

namespace Sys2Proof.Machine

/-- The events of one symbol (R123, R124). -/
def symbolEvents (bit : Bool) : List Event :=
  if bit then [.w .high, .d longUs, .w .low, .d shortUs] else [.w .high, .d shortUs, .w .low, .d longUs]

/-- The bit loop: `n` iterations on the working copy, the shift after each (R122, R125). -/
def bitLoop : Nat → Frame → List Event
  | 0, _ => []
  | n + 1, f => symbolEvents (topBit f) ++ bitLoop n (f <<< 1)

/-- `XMIT(frame)`, the algorithm of R120. -/
def xmitEvents (c : Cfg) (frame : Frame) : List Event :=
  [.w .low, .d startLowUs] ++ bitLoop 16 frame ++ [.w .high, .d c.settleUs]

/-- `INIT` (R161). -/
def initEvents (c : Cfg) : List Event :=
  [.w .high] ++ xmitEvents c (resetFrame c) ++ [.d c.initSettleUs]

/-- The frame an instruction that sends exactly one plain frame puts on the wire (R85, R181); `INIT` and `BIND` send
more than a frame, the reserved kind and `ENCODE` send none. -/
def sentFrame (c : Cfg) : Instr → Option Frame
  | .xmit frame => some frame
  | .send opcode dataH dataL => some (encodeBytes c.layout opcode dataH dataL)
  | .play => some (tripleFrame c c.optable.play)
  | .setvol level => some (tripleFrame c (volumeTriple c level))
  | .playtrack index => some (tripleFrame c (trackTriple c index))
  | .looptrack index => some (loopFrame c index)
  | .pause => some (tripleFrame c c.optable.pause)
  | .stop => some (tripleFrame c c.optable.stop)
  | .playpause => some (tripleFrame c c.optable.playpause)
  | .prev => some (tripleFrame c c.optable.prev)
  | .next => some (tripleFrame c c.optable.next)
  | .setmodeLoop => some (tripleFrame c c.optable.modeLoop)
  | .setmodeRandom => some (tripleFrame c c.optable.modeRandom)
  | .reset => some (resetFrame c)
  | .init | .reservedCmdKind3 | .encode _ _ _ | .bind _ => none

/-- The events of an instruction from its acceptance to its completion. -/
def instrEvents (c : Cfg) : Instr → List Event
  | .init => initEvents c
  | .bind none => initEvents c
  | .bind (some level) => initEvents c ++ xmitEvents c (tripleFrame c (volumeTriple c level))
  | i => match sentFrame c i with
    | some f => xmitEvents c f
    | none => []

/-- The sum of the delays of a trace (R129). -/
def totalUs : List Event → Nat
  | [] => 0
  | .w _ :: es => totalUs es
  | .d n :: es => n + totalUs es

/-- A segment of a waveform: a level and its duration (R12). -/
abbrev Segment := Level × Nat

/-- One step of the fold of R12: the current level and the segments so far, newest first. -/
def waveStep : Level × List Segment → Event → Level × List Segment
  | (_, segs), .w v => (v, segs)
  | (cur, segs), .d n =>
    if n = 0 then (cur, segs)
    else
      match segs with
      | (l, m) :: rest => if l = cur then (cur, (l, m + n) :: rest) else (cur, (cur, n) :: (l, m) :: rest)
      | [] => (cur, [(cur, n)])

/-- The waveform of a trace from an initial level (R12). -/
def waveform (initial : Level) (es : List Event) : List Segment := ((es.foldl waveStep (initial, [])).2).reverse

/-- The waveform of a list of levels, each one microsecond long: their run-length encoding (R146). -/
def runLength (initial : Level) (levels : List Level) : List Segment :=
  waveform initial (levels.flatMap fun l => [.w l, .d 1])

/-- The bits of `n` slots, appended to `acc`: 1 when the high phase is the longer, else 0 (R87, D32). -/
def readSlots : Nat → List Segment → Frame → Option Frame
  | 0, _, acc => some acc
  | n + 1, (.high, h) :: (.low, l) :: rest, acc =>
    if l < h then readSlots n rest ((acc <<< 1) ||| 1) else readSlots n rest (acc <<< 1)
  | _ + 1, _, _ => none

/-- The reference demodulator of a waveform that begins with a start condition (R87). -/
def demodulate : List Segment → Option Frame
  | (.low, _) :: rest => readSlots 16 rest 0
  | _ => none

/-- A trace that begins at tick `t`, each event with its tick: a write has the tick it takes effect, a delay the tick
it is over. -/
def stamp : Nat → List Event → List TraceEntry
  | _, [] => []
  | t, .w v :: es => ⟨t, .w v⟩ :: stamp t es
  | t, .d n :: es => ⟨t + n, .d n⟩ :: stamp (t + n) es

/-- The line-event trace of the machine, every W and D event in order (R12). -/
def State.lineEvents (s : State) : List Event := s.trace.map TraceEntry.event

/-- The time between two ticks, when there is any. -/
def gapEvents (t u : Nat) : List Event := if t < u then [.d (u - t)] else []

/-- What happens on the wire from tick `t` to tick `stop`: the writes of a trace, and between them all the time that
passes, idle time and a delay that is cut or not yet over included (R141). -/
def wireEvents (t : Nat) (stop : Nat) : List TraceEntry → List Event
  | [] => gapEvents t stop
  | ⟨u, .w v⟩ :: es => gapEvents t u ++ .w v :: wireEvents u stop es
  | ⟨_, .d _⟩ :: es => wireEvents t stop es

/-- The waveform on the wire since reset, from the idle level (R12, R36, R141). -/
def State.wire (s : State) : List Segment := waveform .high (wireEvents 0 s.now s.trace)

end Sys2Proof.Machine
end

