-- ==== Sys2Proof/Machine/Assembly.lean ====
section
/-! DEFINITION. The host's side of a program (spec 30 R84, R85): the expansion of pseudo-instructions to port commands,
the command words a program is sent as, its written form, and its loading into the script. -/

namespace Sys2Proof.Machine

/-- The `SEND` of a triple. -/
def sendTriple (t : Triple) : Instr := .send t.opcode t.dataH t.dataL

/-- The expansion of an instruction into port commands (R85). `ENCODE` is an expression and no command (R84). -/
def expand (c : Cfg) : Instr → List Instr
  | .xmit frame => [.xmit frame]
  | .send opcode dataH dataL => [.send opcode dataH dataL]
  | .init => [.init]
  | .reservedCmdKind3 => [.reservedCmdKind3]
  | .encode _ _ _ => []
  | .play => [sendTriple c.optable.play]
  | .setvol level => [sendTriple (volumeTriple c level)]
  | .playtrack index => [sendTriple (trackTriple c index)]
  | .looptrack index => [.xmit (loopFrame c index)]
  | .pause => [sendTriple c.optable.pause]
  | .stop => [sendTriple c.optable.stop]
  | .playpause => [sendTriple c.optable.playpause]
  | .prev => [sendTriple c.optable.prev]
  | .next => [sendTriple c.optable.next]
  | .setmodeLoop => [sendTriple c.optable.modeLoop]
  | .setmodeRandom => [sendTriple c.optable.modeRandom]
  | .reset => [sendTriple c.resetTriple]
  | .bind none => [.init]
  | .bind (some level) => [.init, sendTriple (volumeTriple c level)]

/-- The command words a program is presented as (R76, R85). -/
def commandWords (c : Cfg) (program : List Instr) : List CmdWord :=
  (program.flatMap (expand c)).filterMap encodeCmd26

/-- The mnemonic an instruction is written with (R84, R85). -/
def mnemonic : Instr → String
  | .xmit _ => "XMIT"
  | .send _ _ _ => "SEND"
  | .init => "INIT"
  | .reservedCmdKind3 => "(reserved cmd_kind 3)"
  | .encode _ _ _ => "ENCODE"
  | .play => "PLAY"
  | .setvol _ => "SETVOL"
  | .playtrack _ => "PLAYTRACK"
  | .looptrack _ => "LOOPTRACK"
  | .pause => "PAUSE"
  | .stop => "STOP"
  | .playpause => "PLAYPAUSE"
  | .prev => "PREV"
  | .next => "NEXT"
  | .setmodeLoop => "SETMODE LOOP"
  | .setmodeRandom => "SETMODE RANDOM"
  | .reset => "RESET"
  | .bind _ => "BIND"

/-- An instruction as R84 writes it: the mnemonic, then the operands in decimal with commas between them; `ENCODE` is
an expression and has parentheses. -/
def render (i : Instr) : String :=
  match i with
  | .xmit frame => mnemonic i ++ " " ++ toString frame.toNat
  | .send opcode dataH dataL =>
    mnemonic i ++ " " ++ toString opcode.toNat ++ ", " ++ toString dataH.toNat ++ ", " ++ toString dataL.toNat
  | .encode opcode dataH dataL =>
    mnemonic i ++ "(" ++ toString opcode ++ ", " ++ toString dataH ++ ", " ++ toString dataL ++ ")"
  | .setvol n | .playtrack n | .looptrack n | .bind (some n) => mnemonic i ++ " " ++ toString n
  | .init | .reservedCmdKind3 | .play | .pause | .stop | .playpause | .prev | .next | .setmodeLoop | .setmodeRandom
  | .reset | .bind none => mnemonic i

/-- `s` with a program to run: every line presented in order and held until accepted (R84, R264; log 7). -/
def State.loadProgram (s : State) (program : List Instr) : State := { s with script := program.map .line }

end Sys2Proof.Machine
end

