-- ==== Sys2Proof/Machine/Observe.lean ====
section
/-! DEFINITION. What an observer sees of a run: the levels on the wire, tick by tick (spec 41 R144, R146). -/

namespace Sys2Proof.Machine

/-- The levels of `n` states from `s` on: `s.regs.line`, then that of the next state, and so on (R146). -/
def levels : Nat → State → List Level
  | 0, _ => []
  | n + 1, s =>
    s.regs.line ::
      match step s with
      | .next t => levels n t
      | .fault _ => []
      | .refused _ => []

/-- `n` steps of the machine lead from `s` to `t`. -/
def Reaches (n : Nat) (s t : State) : Prop := Host.Core.run Sys2Proof.core n s = .next t

end Sys2Proof.Machine
end

