-- ==== Sys2Proof/Safety.lean ====
section
/-! DEFINITION. What holds in every good state: the invariants of spec 10 R33 with the legal ranges of the registers,
the agreement of the trace with the line (10 R20, R22), and the premises on the configuration (00 R7, 43 R199). -/

namespace Sys2Proof.Machine

/-- The invariants I1 to I8 of R33, word for word. -/
structure RegsInv (c : Cfg) (r : Regs) : Prop where
  i1 : r.phase = .idle → r.line = .high ∧ r.timer = 0 ∧ r.shreg = 0 ∧ r.bitcnt = 0 ∧ r.initseq = false
  i2 : r.phase = .start → r.line = .low ∧ r.bitcnt = 16 ∧ 1 ≤ r.timer.toNat ∧ r.timer.toNat ≤ 5000
  i3 : r.phase = .bitHi → r.line = .high ∧ 1 ≤ r.bitcnt.toNat ∧ r.bitcnt.toNat ≤ 16 ∧ 1 ≤ r.timer.toNat ∧
    r.timer.toNat ≤ (if r.shreg.getLsbD 15 then 600 else 200)
  i4 : r.phase = .bitLo → r.line = .low ∧ 1 ≤ r.bitcnt.toNat ∧ r.bitcnt.toNat ≤ 16 ∧ 1 ≤ r.timer.toNat ∧
    r.timer.toNat ≤ (if r.shreg.getLsbD 15 then 200 else 600)
  i5 : r.phase = .settle → r.line = .high ∧ r.bitcnt = 0 ∧ r.shreg = 0 ∧ 1 ≤ r.timer.toNat ∧
    r.timer.toNat ≤ c.settleUs
  i6 : r.phase = .initWait → r.line = .high ∧ r.initseq = true ∧ r.bitcnt = 0 ∧ r.shreg = 0 ∧ 1 ≤ r.timer.toNat ∧
    r.timer.toNat ≤ c.initSettleUs
  i7 : r.phase = .bitHi ∨ r.phase = .bitLo → ∀ k : Nat, k < 16 - r.bitcnt.toNat → r.shreg.getLsbD k = false
  i8 : r.line = .low ↔ r.phase = .start ∨ r.phase = .bitLo

/-- A state whose registers meet R33. -/
abbrev State.Inv (s : State) : Prop := RegsInv s.cfg s.regs

/-- The level after the last write of a trace, from an initial level. -/
def lastLevel (initial : Level) : List TraceEntry → Level
  | [] => initial
  | ⟨_, .w v⟩ :: es => lastLevel v es
  | ⟨_, .d _⟩ :: es => lastLevel initial es

/-- What the entry after another one may be: a delay that is over exactly its microseconds after it (R11), or a write
not before it. -/
def Follows (e f : TraceEntry) : Prop :=
  match f.event with
  | .w _ => e.tick ≤ f.tick
  | .d n => f.tick = e.tick + n

/-- The trace is a history of the line: it begins with a write; every delay lasted exactly its microseconds, and nothing
runs backwards or past the present tick; the delay that is running began at the last entry and has passed but for what
`TIMER` still counts (R11, R25); the line has the level last written, the idle level when nothing was written (R20,
R22). -/
structure State.TraceInv (s : State) : Prop where
  first : ∀ e, s.trace.head? = some e → ∃ v, e.event = .w v
  exact : s.trace.IsChain Follows
  past : ∀ e ∈ s.trace, e.tick ≤ s.now
  running : s.regs.phase ≠ .idle →
    ∃ e, s.trace.getLast? = some e ∧ e.tick + delayUs s.cfg s.regs = s.now + s.regs.timer.toNat
  level : s.regs.line = lastLevel .high s.trace

/-- The pinned entries of R7: the revision of the source's scenarios. -/
structure CfgPinned (c : Cfg) : Prop where
  play : c.optable.play = ⟨0x06, 0x01, 0x00⟩
  opSetvol : c.opSetvol = 0x04
  opTrack : c.opTrack = 0x03

/-- The state one tick after `s` in which a command was taken: `frame` is loaded, the start condition has begun, and
the line writes of that tick, in order, are `writes` (R134, R164). -/
def State.accepted (s : State) (frame : Frame) (initseq : Bool) (writes : List Level) : State :=
  { s with
    now := s.now + 1
    regs := { line := .low, phase := .start, timer := 5000, shreg := frame, bitcnt := 16, initseq := initseq }
    trace := s.trace ++ writes.map fun v => ⟨s.now + 1, .w v⟩ }

/-- The state one step after `s` on a tick that takes no command: the registers become `r`, the trace gets the events
of `events`, the host goes on. -/
def State.progressed (s : State) (r : Regs) (events : List Event) : State :=
  { s with
    now := s.now + 1
    regs := r
    trace := s.trace ++ events.map fun e => ⟨s.now + 1, e⟩
    script := s.scriptNext }

/-- The two playlist modes are "two fixed frames" (R191, R199); the reset configuration has it and no step writes the
configuration (log 3). -/
def CfgModesDiffer (c : Cfg) : Prop := tripleFrame c c.optable.modeLoop ≠ tripleFrame c c.optable.modeRandom

/-- The host drives no hardware reset from now on (R264: `rst` is 0 throughout a run). -/
def NoReset (script : List ScriptLine) : Prop := ∀ l ∈ script, ∀ p : PortSample, l = .sample p → p.rst = false

end Sys2Proof.Machine
end

