-- ==== Sys2Proof/Certificates/Slice0/Obligations.lean ====
section
/-! DEFINITION. The statements for the provers, from the numbered rules of spec/. Each docstring names the rules it
formalises. Writing `s.accepted`, `s.progressed`, `tripleBits` and the invariants follows Sys2Proof/Safety.lean. -/

open Sys2Proof Sys2Proof.Machine

/-! ### Encodings -/

/-- Words written out from R76, R71 and R86 (vectors SD1, SD3, SD6, PB1, S1 to S3) decode to what they stand for; a
frame in no pinned row has no instruction. -/
def Obligations.WordsFromTheSpecDecode : Prop :=
  decodeTableWord 32 0x0008000 = some (.xmit 0x8000) ∧
  decodeTableWord 32 0x0AB6100 = some (.xmit 0x6100) ∧
  decodeTableWord 32 0x1060100 = some (.send 0x06 0x01 0x00) ∧
  decodeTableWord 32 0x104001E = some (.send 0x04 0x00 0x1E) ∧
  decodeTableWord 32 0x2000000 = some .init ∧
  decodeTableWord 32 0x3AABBCC = some .reservedCmdKind3 ∧
  decodeTableWord 24 0x03012C = some (.encode 0x03 0x01 0x2C) ∧
  decodeTableWord 16 0x6100 = some .play ∧
  decodeTableWord 16 0x401E = some (.setvol 30) ∧
  decodeTableWord 16 0x312C = some (.playtrack 300) ∧
  decodeTableWord 16 0x0000 = none

/-- R76: the meaning of every command word, whatever its ignored fields hold. -/
def Obligations.CommandWordMeaning : Prop :=
  ∀ a b c : Byte,
    decodeCmd26 ((0 : BitVec 2) ++ a ++ b ++ c) = .xmit (b ++ c) ∧
    decodeCmd26 ((1 : BitVec 2) ++ a ++ b ++ c) = .send a b c ∧
    decodeCmd26 ((2 : BitVec 2) ++ a ++ b ++ c) = .init ∧
    decodeCmd26 ((3 : BitVec 2) ++ a ++ b ++ c) = .reservedCmdKind3

/-- R76, R100, R86: every instruction that has a word in a table format has it, and decoding that word gives the
instruction back, at every value of every operand the format admits. -/
def Obligations.EncodeThenDecode : Prop :=
  (∀ i w, encode i = some w → decodeTableWord w.nbits w.bits = some i) ∧
  (∀ f : Frame, (encode (.xmit f)).isSome) ∧
  (∀ o h l : Byte, (encode (.send o h l)).isSome) ∧
  (encode .init).isSome ∧ (encode .reservedCmdKind3).isSome ∧ (encode .play).isSome ∧
  (∀ o h l : Nat, WellFormed (.encode o h l) → (encode (.encode o h l)).isSome) ∧
  (∀ v : Int, 0 ≤ v → v < 256 → (encode (.setvol v)).isSome) ∧
  (∀ i : Int, 0 ≤ i → i < 4096 → (encode (.playtrack i)).isSome)

/-- R76: every command word is read, and the word sent for what was read has the kind and the operand fields of the
original, with the ignored fields 0. -/
def Obligations.DecodeThenEncode : Prop :=
  ∀ w : CmdWord,
    encodeCmd26 (decodeCmd26 w) =
      some (w &&& (if w.extractLsb' 24 2 = 0 then 0x300FFFF else if w.extractLsb' 24 2 = 1 then 0x3FFFFFF
        else 0x3000000))

/-! ### The Frame Encoder -/

/-- R103: the result bit by bit, for both layouts. -/
def Obligations.EncoderBitByBit : Prop :=
  ∀ (layout : Layout) (o h l : Byte),
    (encodeBytes layout o h l).extractLsb' 12 4 = o.extractLsb' 0 4 ||| h.extractLsb' 4 4 ∧
    (encodeBytes layout o h l).extractLsb' 8 4 = h.extractLsb' 0 4 ∧
    (encodeBytes layout o h l).extractLsb' 0 8 = l

/-- R73: the two packing formulas give the same frame for all non-negative integers. -/
def Obligations.LayoutsGiveTheSameFrame : Prop :=
  ∀ cmd dataH dataL : Nat,
    encodeFrame .nested cmd dataH dataL =
      BitVec.ofNat 16 (((((cmd <<< 4) ||| dataH) <<< 8) ||| dataL) % 65536) ∧
    encodeFrame .nested cmd dataH dataL = encodeFrame .flatMasked cmd dataH dataL

/-- R106: over-wide operands; the frame is the low 16 bits of the OR of the weighted operands. -/
def Obligations.OverWideOperands : Prop :=
  ∀ (layout : Layout) (o h l : Nat),
    (encodeFrame layout o h l).toNat = ((o * 4096) ||| (h * 256) ||| l) % 65536

/-- R108: the round trip of the encoder and its extraction functions, both ways. -/
def Obligations.EncoderRoundTrip : Prop :=
  ∀ layout : Layout,
    (∀ o h l : Byte,
      frameOpc (encodeBytes layout o h l) = ((o ||| (h >>> 4)) &&& 0xF).setWidth 4 ∧
      frameDh (encodeBytes layout o h l) = (h &&& 0xF).setWidth 4 ∧
      frameDl (encodeBytes layout o h l) = l ∧
      (((frameOpc (encodeBytes layout o h l)).setWidth 8 = o ∧ (frameDh (encodeBytes layout o h l)).setWidth 8 = h ∧
        frameDl (encodeBytes layout o h l) = l) ↔ (o ≤ 0x0F ∧ h ≤ 0x0F))) ∧
    (∀ f : Frame, encodeBytes layout ((frameOpc f).setWidth 8) ((frameDh f).setWidth 8) (frameDl f) = f)

/-- R100, R104, R106: `ENCODE` completes in every state, returns its frame and touches nothing else. (That the returned
frame is kept in the history `results` is the model's choice, log 10.) -/
def Obligations.EncodeReturnsItsFrame : Prop :=
  ∀ (o h l : Nat) (s : State),
    ∃ f : Frame, f.toNat = ((o * 4096) ||| (h * 256) ||| l) % 65536 ∧
      exec (.encode o h l) s = .next { s with results := s.results ++ [f] }

/-! ### Port commands -/

/-- R134: acceptance of `XMIT` from the port; with it the completion of the command on its own. -/
def Obligations.XmitAccepted : Prop :=
  ∀ (a b c : Byte) (s : State) (rest : List ScriptLine),
    s.regs.phase = .idle → s.script = .sample ⟨false, true, 0, a, b, c⟩ :: rest →
      step s = .next ({ s with script := rest }.accepted (b ++ c) false [.low]) ∧
      exec (.xmit (b ++ c)) s = .next (s.accepted (b ++ c) false [.low])

/-- R160 with R103: `SEND` is taken as the `XMIT` of its encoded frame, and in every state does what that `XMIT`
does. -/
def Obligations.SendAccepted : Prop :=
  ∀ (o h l : Byte) (s : State),
    exec (.send o h l) s = exec (.xmit (tripleBits ⟨o, h, l⟩)) s ∧
    (s.regs.phase = .idle → exec (.send o h l) s = .next (s.accepted (tripleBits ⟨o, h, l⟩) false [.low]))

/-- R164: acceptance of `INIT`: the Reset frame is loaded, W(1) then W(0) fall on the same tick. -/
def Obligations.InitAccepted : Prop :=
  ∀ s : State, s.regs.phase = .idle →
    exec .init s = .next (s.accepted (tripleBits s.cfg.resetTriple) true [.high, .low])

/-- R82, R141, R143: the reserved kind presented in `IDLE` is consumed and has no effect. (That the model executes it
and does not refuse it is its choice, log 9.) -/
def Obligations.ReservedKindConsumed : Prop :=
  ∀ (a b c : Byte) (s : State) (rest : List ScriptLine),
    s.regs.phase = .idle → s.script = .sample ⟨false, true, 3, a, b, c⟩ :: rest →
      step s = .next { s with now := s.now + 1, script := rest } ∧
      exec .reservedCmdKind3 s = .next { s with now := s.now + 1 }

/-- R166: while the block is busy no command is taken: the tick is that of no command, whichever command it is. -/
def Obligations.CommandsIgnoredWhileBusy : Prop :=
  ∀ (i j : Instr) (s : State), s.regs.phase ≠ .idle →
    (∀ o h l, i ≠ .encode o h l) → (∀ o h l, j ≠ .encode o h l) →
      exec i s = exec j s ∧ exec i s = .next (tick s) ∧ (tick s).script = s.script

/-- A step runs the instruction presented to it: a command word on the port as its decoding says, a program line in
`IDLE` as itself, a held program line while busy not yet (R143, R166, R264). The last clause is the model's choice and
no rule of the spec: a table word put in front of the host's script by `withFetchWord` is executed by the next step in
`IDLE`, a word of the 16-bit frame format too, as the program line it stands for (log 7, 13), although the block itself
never decodes a frame (R86). -/
def Obligations.StepRunsThePresentedInstruction : Prop :=
  (∀ (s : State) (p : PortSample) (rest : List ScriptLine),
    s.script = .sample p :: rest → p.rst = false → p.cmdValid = true →
      step s = exec (decodeCmd26 (p.cmdKind ++ p.cmdA ++ p.cmdB ++ p.cmdC)) { s with script := rest }) ∧
  (∀ (s : State) (i : Instr) (rest : List ScriptLine), s.script = .line i :: rest → s.regs.phase = .idle →
      step s = exec i { s with script := rest }) ∧
  (∀ (s : State) (i : Instr) (rest : List ScriptLine), s.script = .line i :: rest → s.regs.phase ≠ .idle →
      step s = .next (tick s)) ∧
  (∀ (s : State) (nbits w : Nat) (i : Instr), decodeTableWord nbits w = some i → s.regs.phase = .idle →
      step (s.withFetchWord nbits w) = exec i s)

/-! ### Operations -/

/-- R195: the clamp is what its three cases say, total, idempotent and monotone, and applied before encoding it keeps
the data-low field of every volume frame within the volume range. -/
def Obligations.ClampLaws : Prop :=
  (∀ v w lo hi : Int, lo ≤ hi →
    (v < lo → clamp v lo hi = lo) ∧ (hi < v → clamp v lo hi = hi) ∧ (lo ≤ v → v ≤ hi → clamp v lo hi = v) ∧
    lo ≤ clamp v lo hi ∧ clamp v lo hi ≤ hi ∧ clamp (clamp v lo hi) lo hi = clamp v lo hi ∧
    (v ≤ w → clamp v lo hi ≤ clamp w lo hi)) ∧
  ∀ (c : Cfg) (v : Int),
    volMin ≤ ((frameDl (tripleFrame c (volumeTriple c v))).toNat : Int) ∧
    ((frameDl (tripleFrame c (volumeTriple c v))).toNat : Int) ≤ volMax c

/-- R198: the index split of any integer, most significant byte first. -/
def Obligations.IndexSplit : Prop :=
  ∀ i : Int,
    ((indexHigh i).toNat : Int) = (i / 256) % 256 ∧ ((indexLow i).toNat : Int) = i % 256 ∧
    indexHigh i ++ indexLow i = BitVec.ofInt 16 i ∧
    (0 ≤ i → i ≤ 65535 → ((indexHigh i ++ indexLow i).toNat : Int) = i)

/-- R190, R196: `SETVOL v` sends `0x4000 | clamp(v, VOL_MIN, VOL_MAX)` in the revision of the source's scenarios. -/
def Obligations.SetVolumeFrame : Prop :=
  ∀ (v : Int) (s : State), s.regs.phase = .idle → s.cfg.opSetvol = 0x04 →
    ∃ d : Byte, (d.toNat : Int) = max 0 (min v (if s.cfg.volMax = .ten then 10 else 30)) ∧
      exec (.setvol v) s = .next (s.accepted (0x4000 ||| d.setWidth 16) false [.low])

/-- R188, R197: `PLAYTRACK i` sends `0x3000` with the 16 low bits of the clamped or unclamped index ORed onto it, for
every integer, the indices that reach the opcode nibble among them. -/
def Obligations.PlayTrackFrame : Prop :=
  ∀ (i : Int) (s : State), s.regs.phase = .idle → s.cfg.opTrack = 0x03 →
    exec (.playtrack i) s =
      .next (s.accepted
        (0x3000 ||| BitVec.ofInt 16
          (if s.cfg.trackClamp = .clamped then max 0 (min i (s.cfg.trackMax : Int)) else i)) false [.low])

/-- R189: the frame of `LOOPTRACK i` differs from that of `PLAYTRACK i` in the bit `LOOP_BIT` and in no other. -/
def Obligations.LoopTrackFrame : Prop :=
  ∀ (i : Int) (s : State), s.regs.phase = .idle →
    ∃ f g : Frame,
      exec (.playtrack i) s = .next (s.accepted f false [.low]) ∧
      exec (.looptrack i) s = .next (s.accepted g false [.low]) ∧
      (∀ k : Nat, k < 16 → (g.getLsbD k ≠ f.getLsbD k ↔ k = s.cfg.loopBit.val))

/-- R182 to R187, R191 to R193: every argument-less operation sends the frame of its configured triple. -/
def Obligations.ArgumentlessOperations : Prop :=
  ∀ (s : State) (i : Instr) (t : Triple), s.regs.phase = .idle →
    (i, t) ∈ [(Instr.play, s.cfg.optable.play), (.pause, s.cfg.optable.pause), (.stop, s.cfg.optable.stop),
      (.playpause, s.cfg.optable.playpause), (.prev, s.cfg.optable.prev), (.next, s.cfg.optable.next),
      (.setmodeLoop, s.cfg.optable.modeLoop), (.setmodeRandom, s.cfg.optable.modeRandom),
      (.reset, s.cfg.resetTriple)] →
    exec i s = .next (s.accepted (tripleBits t) false [.low])

/-- R182: in the revision of the source's scenarios `PLAY` sends `0x6100`. -/
def Obligations.PlayFrame : Prop :=
  ∀ s : State, s.regs.phase = .idle → s.cfg.optable.play = ⟨0x06, 0x01, 0x00⟩ →
    exec .play s = .next (s.accepted 0x6100 false [.low])

/-- R191, R199: where the two playlist modes are two frames, `SETMODE LOOP` and `SETMODE RANDOM` load different
ones. -/
def Obligations.PlaylistModesDiffer : Prop :=
  ∀ s : State, s.regs.phase = .idle → CfgModesDiffer s.cfg →
    ∃ t u : State, exec .setmodeLoop s = .next t ∧ exec .setmodeRandom s = .next u ∧ t.regs.shreg ≠ u.regs.shreg

/-- R194: `BIND [v]` is `INIT`, and then, when v is given, `SETVOL v`, which the host presents next. -/
def Obligations.BindAccepted : Prop :=
  ∀ (s : State), s.regs.phase = .idle →
    exec (.bind none) s = .next (s.accepted (tripleBits s.cfg.resetTriple) true [.high, .low]) ∧
    ∀ v : Int, exec (.bind (some v)) s =
      .next ({ s with script := .line (.setvol v) :: s.script }.accepted
        (tripleBits s.cfg.resetTriple) true [.high, .low])

/-- R85, R181: an instruction that expands to one command does in every state what that command does. -/
def Obligations.PseudoInstructionIsItsExpansion : Prop :=
  ∀ (i j : Instr) (s : State), expand s.cfg i = [j] → exec i s = exec j s

/-! ### The sequencer, tick by tick -/

/-- R135: countdown. -/
def Obligations.Countdown : Prop :=
  ∀ s : State, s.rstNow = false → s.regs.phase ≠ .idle → 1 < s.regs.timer.toNat →
    step s = .next (s.progressed { s.regs with timer := s.regs.timer - 1 } [])

/-- R136, R11: end of `START`; the trace gets the D of the delay that is over, then W(1). (That a delay's D is appended
when it is over is log 8, in this and the next statements.) -/
def Obligations.EndOfStart : Prop :=
  ∀ s : State, s.rstNow = false → s.regs.phase = .start → s.regs.timer = 1 →
    step s = .next (s.progressed
      { s.regs with line := .high, phase := .bitHi, timer := if s.regs.shreg.getLsbD 15 then 600 else 200 }
      [.d 5000, .w .high])

/-- R137, R11: end of `BIT_HI`. -/
def Obligations.EndOfBitHigh : Prop :=
  ∀ s : State, s.rstNow = false → s.regs.phase = .bitHi → s.regs.timer = 1 →
    step s = .next (s.progressed
      { s.regs with line := .low, phase := .bitLo, timer := if s.regs.shreg.getLsbD 15 then 200 else 600 }
      [.d (if s.regs.shreg.getLsbD 15 then 600 else 200), .w .low])

/-- R138, R11: end of `BIT_LO` with more bits to send; the shift first, then the test of the new top bit. -/
def Obligations.EndOfBitLowMoreBits : Prop :=
  ∀ s : State, s.rstNow = false → s.regs.phase = .bitLo → s.regs.timer = 1 → 1 < s.regs.bitcnt.toNat →
    step s = .next (s.progressed
      { s.regs with
        shreg := s.regs.shreg <<< 1, bitcnt := s.regs.bitcnt - 1, line := .high, phase := .bitHi
        timer := if (s.regs.shreg <<< 1).getLsbD 15 then 600 else 200 }
      [.d (if s.regs.shreg.getLsbD 15 then 200 else 600), .w .high])

/-- R139, R11: end of `BIT_LO` after the last bit. -/
def Obligations.EndOfBitLowLastBit : Prop :=
  ∀ s : State, s.rstNow = false → s.regs.phase = .bitLo → s.regs.timer = 1 → s.regs.bitcnt = 1 →
    step s = .next (s.progressed
      { s.regs with
        shreg := s.regs.shreg <<< 1, bitcnt := 0, line := .high, phase := .settle
        timer := if s.cfg.settle = .us5000 then 5000 else 6000 }
      [.d (if s.regs.shreg.getLsbD 15 then 200 else 600), .w .high]) ∧
    (s.Inv → s.regs.shreg <<< 1 = 0)

/-- R140, R164: end of `SETTLE` of a plain transmission and of an `INIT`, and end of `INIT_WAIT`. No write; the states of
each phase are one D event (R164), which the trace has when they are over (log 8). -/
def Obligations.EndOfSettle : Prop :=
  ∀ s : State, s.rstNow = false → s.regs.timer = 1 →
    (s.regs.phase = .settle → s.regs.initseq = false →
      step s = .next (s.progressed { s.regs with timer := 0, phase := .idle }
        [.d (if s.cfg.settle = .us5000 then 5000 else 6000)])) ∧
    (s.regs.phase = .settle → s.regs.initseq = true →
      step s = .next (s.progressed
        { s.regs with timer := BitVec.ofNat 16 (20000 + s.cfg.initSettleExtra.val), phase := .initWait }
        [.d (if s.cfg.settle = .us5000 then 5000 else 6000)])) ∧
    (s.regs.phase = .initWait →
      step s = .next (s.progressed { s.regs with timer := 0, initseq := false, phase := .idle }
        [.d (20000 + s.cfg.initSettleExtra.val)]))

/-- R11: a delay lasts exactly its microseconds. From the state in which a phase is entered (the whole delay is still to
come), the block stays in that phase with `LINE` unchanged and nothing on the trace for all its ticks but the last step,
which appends D(n) (and, where the next phase begins with a write, that write), whatever the host does short of
`rst`. (That the trace is unchanged while the delay runs and gets its D from the step that ends it, although R140 and
R164 say "no trace event" there, is the model's choice, log 8.) -/
def Obligations.DelayIsExact : Prop :=
  ∀ s : State, s.Inv → s.regs.phase ≠ .idle → s.regs.timer.toNat = delayUs s.cfg s.regs → NoReset s.script →
    (∀ m : Nat, m < delayUs s.cfg s.regs →
      ∃ u : State, Reaches m s u ∧ u.regs.phase = s.regs.phase ∧ u.regs.line = s.regs.line ∧ u.now = s.now + m ∧
        u.trace = s.trace) ∧
    ∃ (t : State) (writes : List Level), Reaches (delayUs s.cfg s.regs) s t ∧
      t.now = s.now + delayUs s.cfg s.regs ∧ t.regs.phase ≠ s.regs.phase ∧
      t.trace = s.trace ++ ⟨t.now, .d (delayUs s.cfg s.regs)⟩ :: writes.map fun v => ⟨t.now, .w v⟩

/-- R141: `IDLE` with no command, or with the reserved kind, stays as it is, for any number of ticks. -/
def Obligations.IdleStays : Prop :=
  (∀ s : State, s.rstNow = false → s.regs.phase = .idle →
    (s.presented = none ∨ s.presented = some .reservedCmdKind3) → step s = .next (s.progressed s.regs [])) ∧
  (∀ (n : Nat) (s : State), s.regs.phase = .idle → s.script = [] → Reaches n s { s with now := s.now + n })

/-- R250: the hardware reset. -/
def Obligations.HardwareReset : Prop :=
  ∀ (s : State) (p : PortSample) (rest : List ScriptLine), s.script = .sample p :: rest → p.rst = true →
    step s = .next { s with
      now := s.now + 1
      regs := { line := .high, phase := .idle, timer := 0, shreg := 0, bitcnt := 0, initseq := false }
      trace := s.trace ++ (if s.regs.line = .low then [⟨s.now + 1, .w .high⟩] else [])
      script := rest }

/-- R60, R130, R166: nothing the host does at the command port, short of `rst`, touches a transmission in flight. -/
def Obligations.BusyBlockIgnoresTheHost : Prop :=
  ∀ (s : State) (script : List ScriptLine), s.regs.phase ≠ .idle → NoReset s.script → NoReset script →
    ∃ t u : State, step s = .next t ∧ step { s with script := script } = .next u ∧
      u = { t with script := u.script } ∧ NoReset t.script ∧ NoReset u.script

/-! ### Invariants -/

/-- R34, R7, R199: the machine right after reset meets the invariants, the pinned entries of the configuration and its
two different playlist frames. (That the machine after reset has the pinned revision is the model's choice, log 2.) -/
def Obligations.ResetMeetsTheInvariants : Prop :=
  State.reset.regs = { line := .high, phase := .idle, timer := 0, shreg := 0, bitcnt := 0, initseq := false } ∧
  State.reset.outputs = ⟨.high, false, true⟩ ∧
  State.reset.Inv ∧ State.reset.TraceInv ∧ CfgPinned State.reset.cfg ∧
  CfgModesDiffer State.reset.cfg

/-- R33: every step keeps the invariants I1 to I8, from every state that meets them, so they hold in every state
reachable from the reset registers, whatever the configuration and the host. -/
def Obligations.StepKeepsRegisterInvariants : Prop :=
  (∀ s t : State, s.Inv → step s = .next t → t.Inv) ∧
  (∀ (n : Nat) (s t : State), s.regs = Regs.reset → Reaches n s t → t.Inv)

/-- R199, R29: in every run from reset, whatever the host does, the two playlist modes are two frames, and the
configuration is the one of reset; a step keeps it in every state. -/
def Obligations.PlaylistModesStayApart : Prop :=
  (∀ s t : State, CfgModesDiffer s.cfg → step s = .next t → CfgModesDiffer t.cfg) ∧
  ∀ (script : List ScriptLine) (n : Nat) (t : State), Reaches n { State.reset with script := script } t →
    t.cfg = State.reset.cfg ∧ CfgModesDiffer t.cfg

/-- R11, R12, R20, R22, R36: every step keeps the trace a history of the line in which every delay lasted exactly its
microseconds, in states that meet the register invariants (which every step keeps too, StepKeepsRegisterInvariants). -/
def Obligations.StepKeepsTraceInvariant : Prop :=
  ∀ s t : State, s.Inv → s.TraceInv → step s = .next t → t.TraceInv

/-- R24, R25, R33: in a state that meets the invariants the registers are in their ranges, and `IDLE` is the reset
state. -/
def Obligations.InvariantsGiveRegisterRanges : Prop :=
  ∀ s : State, s.Inv →
    s.regs.timer.toNat ≤ 50000 ∧ (s.regs.timer = 0 ↔ s.regs.phase = .idle) ∧ s.regs.bitcnt.toNat ≤ 16 ∧
    (s.regs.bitcnt = 0 ↔ s.regs.phase = .idle ∨ s.regs.phase = .settle ∨ s.regs.phase = .initWait) ∧
    (s.regs.phase = .idle → s.regs = Regs.reset)

/-- R220: a step and an instruction have one outcome, the next state, in every state. -/
def Obligations.NothingEverStops : Prop :=
  (∀ s : State, ∃ t : State, step s = .next t) ∧ ∀ (i : Instr) (s : State), ∃ t : State, exec i s = .next t

/-- R29, R36, R104, R58: what no step changes: the configuration is constant, histories only grow, and time moves by
at most one tick.
(That trace entries carry ticks is the model's choice, log 8.) -/
def Obligations.StepFrame : Prop :=
  ∀ s t : State, step s = .next t →
    t.cfg = s.cfg ∧ s.trace <+: t.trace ∧ s.results <+: t.results ∧ s.now ≤ t.now ∧ t.now ≤ s.now + 1 ∧
    (∀ e ∈ t.trace.drop s.trace.length, e.tick = t.now)

/-- R22: the line changes only by a write, which the trace records on that tick.
(That trace entries carry ticks is the model's choice, log 8.) -/
def Obligations.LineChangesOnlyByWrites : Prop :=
  ∀ s t : State, step s = .next t → t.regs.line ≠ s.regs.line →
    t.now = s.now + 1 ∧ t.trace.getLast? = some ⟨t.now, .w t.regs.line⟩ ∧ s.trace.length < t.trace.length

/-- The frame of every instruction: the configuration never changes, only `ENCODE` returns a frame and it touches no
register, only `BIND` gives the host something to present, histories only grow. -/
def Obligations.InstructionFrame : Prop :=
  ∀ (i : Instr) (s t : State), exec i s = .next t →
    t.cfg = s.cfg ∧ s.trace <+: t.trace ∧
    ((∀ o h l, i ≠ .encode o h l) → t.results = s.results ∧ t.now = s.now + 1) ∧
    (∀ o h l, i = .encode o h l → t.regs = s.regs ∧ t.trace = s.trace ∧ t.now = s.now) ∧
    ((∀ v, i ≠ .bind (some v)) → t.script = s.script)

/-! ### Event level -/

/-- R128: the trace of `XMIT f` in closed form, with its numbers of events. -/
def Obligations.TransmissionTraceClosedForm : Prop :=
  ∀ (c : Cfg) (f : Frame),
    xmitEvents c f =
      [.w .low, .d 5000] ++
      (List.range 16).flatMap (fun k =>
        let b := f.getLsbD (15 - k)
        [.w .high, .d (if b then 600 else 200), .w .low, .d (if b then 200 else 600)]) ++
      [.w .high, .d c.settleUs] ∧
    (xmitEvents c f).length = 68 ∧
    (xmitEvents c f).count (.w .low) = 17 ∧ (xmitEvents c f).count (.w .high) = 17 ∧
    (∀ b : Bool, hiUs b + loUs b = 800)

/-- R129: duration of a transmission, and the time the line is high within the bit slots. -/
def Obligations.TransmissionDuration : Prop :=
  ∀ (c : Cfg) (f : Frame),
    totalUs (xmitEvents c f) = 17800 + c.settleUs ∧
    (totalUs (xmitEvents c f) = 22800 ∨ totalUs (xmitEvents c f) = 23800) ∧
    (((waveform .high (xmitEvents c f)).dropLast.filter (fun g => g.1 = .high)).map Prod.snd).sum =
      200 * 16 + 400 * (List.range 16).countP (fun k => f.getLsbD k) ∧
    (((waveform .high (xmitEvents c f)).tail.filter (fun g => g.1 = .low)).map Prod.snd).sum =
      600 * 16 - 400 * (List.range 16).countP (fun k => f.getLsbD k)

/-- R132, R75: the waveform of a transmission from the idle level. -/
def Obligations.TransmissionWaveform : Prop :=
  ∀ (c : Cfg) (f : Frame),
    waveform .high (xmitEvents c f) =
      [(.low, 5000)] ++
      (List.range 16).flatMap (fun k =>
        let b := f.getLsbD (15 - k)
        [(.high, if b then 600 else 200), (.low, if b then 200 else 600)]) ++
      [(.high, c.settleUs)]

/-- R162: the trace, the waveform and the duration of `INIT`, from either initial level. -/
def Obligations.InitWaveform : Prop :=
  ∀ (c : Cfg) (initial : Level),
    initEvents c = [.w .high] ++ xmitEvents c (tripleBits c.resetTriple) ++ [.d c.initSettleUs] ∧
    (initEvents c).length = 70 ∧
    totalUs (initEvents c) = 17800 + c.settleUs + c.initSettleUs ∧
    42800 ≤ totalUs (initEvents c) ∧ totalUs (initEvents c) ≤ 73800 ∧
    waveform initial (initEvents c) =
      (waveform .high (xmitEvents c (tripleBits c.resetTriple))).dropLast ++
        [(.high, c.settleUs + c.initSettleUs)]

/-- R12: a waveform holds no zero-length segment and no two neighbours of one level, and lasts as long as the delays of
its trace. -/
def Obligations.WaveformsAreReduced : Prop :=
  ∀ (initial : Level) (es : List Event),
    (∀ g ∈ waveform initial es, 0 < g.2) ∧
    (∀ (k : Nat) (g h : Segment), (waveform initial es)[k]? = some g → (waveform initial es)[k + 1]? = some h →
      g.1 ≠ h.1) ∧
    ((waveform initial es).map Prod.snd).sum = totalUs es

/-- R87: demodulating the waveform of `XMIT f` gives f. -/
def Obligations.DemodulationRecoversTheFrame : Prop :=
  ∀ (c : Cfg) (f : Frame), demodulate (waveform .high (xmitEvents c f)) = some f

/-! ### Whole runs -/

/-- R144: where each phase of an accepted `XMIT` falls in time, whatever the host does meanwhile short of `rst`. -/
def Obligations.PhaseTimetable : Prop :=
  ∀ (f : Frame) (s : State), s.regs = Regs.reset → NoReset s.script →
    ∃ t : State, exec (.xmit f) s = .next t ∧
      ∀ m : Nat, m ≤ 17800 + s.cfg.settleUs →
        ∃ u : State, Reaches m t u ∧
          (m < 5000 → u.regs = ⟨.low, .start, BitVec.ofNat 16 (5000 - m), f, 16, false⟩) ∧
          (∀ k j : Nat, k < 16 → m = 5000 + 800 * k + j →
            (j < hiUs (f.getLsbD (15 - k)) →
              u.regs = ⟨.high, .bitHi, BitVec.ofNat 16 (hiUs (f.getLsbD (15 - k)) - j), f <<< k,
                BitVec.ofNat 5 (16 - k), false⟩) ∧
            (hiUs (f.getLsbD (15 - k)) ≤ j → j < 800 →
              u.regs = ⟨.low, .bitLo, BitVec.ofNat 16 (800 - j), f <<< k, BitVec.ofNat 5 (16 - k), false⟩)) ∧
          (17800 ≤ m → m < 17800 + s.cfg.settleUs →
            u.regs = ⟨.high, .settle, BitVec.ofNat 16 (17800 + s.cfg.settleUs - m), 0, 0, false⟩) ∧
          (m = 17800 + s.cfg.settleUs → u.regs = Regs.reset) ∧
          u.outputs.busy = decide (m < 17800 + s.cfg.settleUs)

/-- R146, R129, R181: every instruction that sends one frame, taken in the reset registers, runs to completion in
17800 + `SETTLE_US` ticks, leaves exactly the events of the event level at their times, and changes nothing else,
whatever the host does meanwhile short of `rst`.
(That the trace has each D event at the tick its delay is over is the model's choice, log 8; R146 speaks of the W
events.) -/
def Obligations.OneFrameRunRefinesEventLevel : Prop :=
  ∀ (i : Instr) (f : Frame) (s : State), s.regs = Regs.reset → NoReset s.script → sentFrame s.cfg i = some f →
    ∃ (t : State) (script : List ScriptLine), exec i s = .next t ∧
      Reaches (17800 + s.cfg.settleUs) t
        { s with
          now := s.now + 1 + (17800 + s.cfg.settleUs)
          trace := s.trace ++ stamp (s.now + 1) (xmitEvents s.cfg f)
          script := script }

/-- R162, R164: `INIT`, taken in the reset registers, keeps the block busy for exactly 17800 + `SETTLE_US` +
`INIT_SETTLE_US` ticks and leaves exactly the 70 events of the event level at their times, the last two of them
D(SETTLE_US) and D(INIT_SETTLE_US).
(That the trace has each D event at the tick its delay is over is the model's choice, log 8.) -/
def Obligations.InitRunRefinesEventLevel : Prop :=
  ∀ s : State, s.regs = Regs.reset → NoReset s.script →
    ∃ (t : State) (script : List ScriptLine), exec .init s = .next t ∧
      Reaches (17800 + s.cfg.settleUs + s.cfg.initSettleUs) t
        { s with
          now := s.now + 1 + (17800 + s.cfg.settleUs + s.cfg.initSettleUs)
          trace := s.trace ++ stamp (s.now + 1) (initEvents s.cfg)
          script := script } ∧
      (∃ es : List Event, es.length = 68 ∧ initEvents s.cfg = es ++ [.d s.cfg.settleUs, .d s.cfg.initSettleUs]) ∧
      ∀ (m : Nat) (u : State), m < 17800 + s.cfg.settleUs + s.cfg.initSettleUs → Reaches m t u →
        u.outputs.busy = true

/-- R146: from the acceptance of `XMIT f` to the return to `IDLE` the levels on the wire, run-length encoded, are the
waveform of the event level, and the events the tick rules append are those of the event level in the same order, each
at its time: with as many ticks between two writes as the delay between them says.
The rule R146 speaks of the W events; that the trace has the D events of R11 and R12 too, each at the tick its delay is
over, is the model's choice (log 8). -/
def Obligations.TickLevelRefinesEventLevel : Prop :=
  ∀ (f : Frame) (s : State), s.regs = Regs.reset → NoReset s.script →
    ∃ t u : State, exec (.xmit f) s = .next t ∧ Reaches (17800 + s.cfg.settleUs) t u ∧ u.regs = Regs.reset ∧
      runLength .high (levels (17800 + s.cfg.settleUs) t) = waveform .high (xmitEvents s.cfg f) ∧
      u.trace = s.trace ++ stamp (s.now + 1) (xmitEvents s.cfg f)

/-- R12, R36: the waveform of the machine's writes and the time between them, idle time included, is what an observer of
the line records, in every run in which the host evaluates no `ENCODE` line. (That the trace carries ticks is log 8,
that an `ENCODE` line takes a step but no time is log 10: the model's choices.) -/
def Obligations.TraceIsWhatTheWireShows : Prop :=
  ∀ (n : Nat) (s t : State), s.now = 0 → s.trace = [] → s.regs.line = .high →
    (∀ o h l, ScriptLine.line (.encode o h l) ∉ s.script) → Reaches n s t →
      t.wire = runLength .high (levels n s)

/-- R145: with two `XMIT` lines held, the second is taken 17801 + `SETTLE_US` ticks after the first and not before. -/
def Obligations.BackToBackCommands : Prop :=
  ∀ (f g : Frame) (s : State), s.regs = Regs.reset → s.script = [.line (.xmit f), .line (.xmit g)] →
    ∃ t u : State,
      Reaches (17801 + s.cfg.settleUs) s t ∧ t.regs = Regs.reset ∧ t.script = [.line (.xmit g)] ∧
      step t = .next u ∧ u.regs = ⟨.low, .start, 5000, g, 16, false⟩ ∧ u.now = s.now + 17801 + s.cfg.settleUs + 1 ∧
      ∀ (m : Nat) (v : State), 1 ≤ m → m < 17801 + s.cfg.settleUs → Reaches m s v → v.outputs.cmdReady = false

/-- R58, R56, R168, R264: a program of any commands and pseudo-instructions, held until accepted, runs to its end from
the reset registers: the line-event trace gets the events of its instructions in program order, none merged, dropped,
reordered or repeated, and nothing else; the end state is the reset state again. That an `ENCODE` among its lines (which
is no command, R84) leaves its result in the history `results`, in order, is the model's choice (log 10).
That the trace gets a D when its delay is over, and none for idle time, is the model's choice too (log 8). -/
def Obligations.ProgramRunsToItsEnd : Prop :=
  ∀ (program : List Instr) (s : State), s.regs = Regs.reset →
    ∃ (n : Nat) (t : State), Reaches n (s.loadProgram program) t ∧
      t.regs = Regs.reset ∧ t.script = [] ∧ t.cfg = s.cfg ∧
      t.lineEvents = s.lineEvents ++ program.flatMap (instrEvents s.cfg) ∧
      t.now = s.now + (program.map fun i => (expand s.cfg i).length + totalUs (instrEvents s.cfg i)).sum ∧
      t.results = s.results ++ program.filterMap fun i =>
        match i with
        | .encode o h l => some (encodeFrame s.cfg.layout o h l)
        | _ => none
end

