-- ==== Sys2Proof/Laws/Config.lean ====
section
/-! SUPPORT. What the configuration of the reset state is made of: the table with its two playlist frames apart. -/

namespace Sys2Proof

/-- Inverting the last bit of the data-low byte changes the frame. -/
theorem tripleBits_dataL_flip (t : Triple) : tripleBits { t with dataL := t.dataL ^^^ 1 } ≠ tripleBits t := by
  intro h
  have h0 := congrArg (fun f : Frame => f.getLsbD 0) h
  simp only [tripleBits, BitVec.getLsbD_append, BitVec.getLsbD_xor] at h0
  simp at h0

/-- The two playlist frames of the table are different (R199). -/
theorem withModesApart_modes (o : OpTable) :
    tripleBits o.withModesApart.modeLoop ≠ tripleBits o.withModesApart.modeRandom := by
  unfold OpTable.withModesApart
  split
  · exact (tripleBits_dataL_flip o.modeLoop).symm
  · assumption

/-- A table whose two playlist frames are different is left as it is, so every such table is possible after reset. -/
theorem withModesApart_of_ne {o : OpTable} (h : tripleBits o.modeLoop ≠ tripleBits o.modeRandom) :
    o.withModesApart = o := if_neg h

end Sys2Proof
end

