-- ==== Sys2Proof/Laws/State.lean ====
section
/-! SUPPORT. One lemma per field for each named update of the state, so that no proof unfolds a record update. -/

namespace Sys2Proof.Machine

@[simp] theorem State.clock_regs (s : State) : s.clock.regs = s.regs := rfl
@[simp] theorem State.clock_cfg (s : State) : s.clock.cfg = s.cfg := rfl
@[simp] theorem State.clock_now (s : State) : s.clock.now = s.now + 1 := rfl
@[simp] theorem State.clock_trace (s : State) : s.clock.trace = s.trace := rfl
@[simp] theorem State.clock_results (s : State) : s.clock.results = s.results := rfl
@[simp] theorem State.clock_script (s : State) : s.clock.script = s.script := rfl

@[simp] theorem State.record_regs (s : State) (e : Event) : (s.record e).regs = s.regs := rfl
@[simp] theorem State.record_cfg (s : State) (e : Event) : (s.record e).cfg = s.cfg := rfl
@[simp] theorem State.record_now (s : State) (e : Event) : (s.record e).now = s.now := rfl
@[simp] theorem State.record_trace (s : State) (e : Event) :
    (s.record e).trace = s.trace ++ [⟨s.now, e⟩] := rfl
@[simp] theorem State.record_results (s : State) (e : Event) : (s.record e).results = s.results := rfl
@[simp] theorem State.record_script (s : State) (e : Event) : (s.record e).script = s.script := rfl

@[simp] theorem State.endDelay_regs (s : State) : s.endDelay.regs = s.regs := rfl
@[simp] theorem State.endDelay_cfg (s : State) : s.endDelay.cfg = s.cfg := rfl
@[simp] theorem State.endDelay_now (s : State) : s.endDelay.now = s.now := rfl
@[simp] theorem State.endDelay_trace (s : State) :
    s.endDelay.trace = s.trace ++ [⟨s.now, .d (delayUs s.cfg s.regs)⟩] := rfl
@[simp] theorem State.endDelay_results (s : State) : s.endDelay.results = s.results := rfl
@[simp] theorem State.endDelay_script (s : State) : s.endDelay.script = s.script := rfl

@[simp] theorem State.writeLine_regs (s : State) (v : Level) : (s.writeLine v).regs = { s.regs with line := v } := rfl
@[simp] theorem State.writeLine_cfg (s : State) (v : Level) : (s.writeLine v).cfg = s.cfg := rfl
@[simp] theorem State.writeLine_now (s : State) (v : Level) : (s.writeLine v).now = s.now := rfl
@[simp] theorem State.writeLine_trace (s : State) (v : Level) : (s.writeLine v).trace = s.trace ++ [⟨s.now, .w v⟩] := rfl
@[simp] theorem State.writeLine_results (s : State) (v : Level) : (s.writeLine v).results = s.results := rfl
@[simp] theorem State.writeLine_script (s : State) (v : Level) : (s.writeLine v).script = s.script := rfl

@[simp] theorem State.enterPhase_regs (s : State) (p : Phase) (us : Nat) : (s.enterPhase p us).regs = { s.regs with phase := p, timer := BitVec.ofNat 16 us } := rfl
@[simp] theorem State.enterPhase_cfg (s : State) (p : Phase) (us : Nat) : (s.enterPhase p us).cfg = s.cfg := rfl
@[simp] theorem State.enterPhase_now (s : State) (p : Phase) (us : Nat) : (s.enterPhase p us).now = s.now := rfl
@[simp] theorem State.enterPhase_trace (s : State) (p : Phase) (us : Nat) : (s.enterPhase p us).trace = s.trace := rfl
@[simp] theorem State.enterPhase_results (s : State) (p : Phase) (us : Nat) : (s.enterPhase p us).results = s.results := rfl
@[simp] theorem State.enterPhase_script (s : State) (p : Phase) (us : Nat) : (s.enterPhase p us).script = s.script := rfl

@[simp] theorem State.shift_regs (s : State) : s.shift.regs = { s.regs with shreg := s.regs.shreg <<< 1 } := rfl
@[simp] theorem State.shift_cfg (s : State) : s.shift.cfg = s.cfg := rfl
@[simp] theorem State.shift_now (s : State) : s.shift.now = s.now := rfl
@[simp] theorem State.shift_trace (s : State) : s.shift.trace = s.trace := rfl
@[simp] theorem State.shift_results (s : State) : s.shift.results = s.results := rfl
@[simp] theorem State.shift_script (s : State) : s.shift.script = s.script := rfl

@[simp] theorem State.setBitcnt_regs (s : State) (n : BitVec 5) : (s.setBitcnt n).regs = { s.regs with bitcnt := n } := rfl
@[simp] theorem State.setBitcnt_cfg (s : State) (n : BitVec 5) : (s.setBitcnt n).cfg = s.cfg := rfl
@[simp] theorem State.setBitcnt_now (s : State) (n : BitVec 5) : (s.setBitcnt n).now = s.now := rfl
@[simp] theorem State.setBitcnt_trace (s : State) (n : BitVec 5) : (s.setBitcnt n).trace = s.trace := rfl
@[simp] theorem State.setBitcnt_results (s : State) (n : BitVec 5) : (s.setBitcnt n).results = s.results := rfl
@[simp] theorem State.setBitcnt_script (s : State) (n : BitVec 5) : (s.setBitcnt n).script = s.script := rfl

@[simp] theorem State.setInitseq_regs (s : State) (b : Bool) : (s.setInitseq b).regs = { s.regs with initseq := b } := rfl
@[simp] theorem State.setInitseq_cfg (s : State) (b : Bool) : (s.setInitseq b).cfg = s.cfg := rfl
@[simp] theorem State.setInitseq_now (s : State) (b : Bool) : (s.setInitseq b).now = s.now := rfl
@[simp] theorem State.setInitseq_trace (s : State) (b : Bool) : (s.setInitseq b).trace = s.trace := rfl
@[simp] theorem State.setInitseq_results (s : State) (b : Bool) : (s.setInitseq b).results = s.results := rfl
@[simp] theorem State.setInitseq_script (s : State) (b : Bool) : (s.setInitseq b).script = s.script := rfl

@[simp] theorem State.advanceScript_regs (s : State) : s.advanceScript.regs = s.regs := rfl
@[simp] theorem State.advanceScript_cfg (s : State) : s.advanceScript.cfg = s.cfg := rfl
@[simp] theorem State.advanceScript_now (s : State) : s.advanceScript.now = s.now := rfl
@[simp] theorem State.advanceScript_trace (s : State) : s.advanceScript.trace = s.trace := rfl
@[simp] theorem State.advanceScript_results (s : State) : s.advanceScript.results = s.results := rfl
@[simp] theorem State.advanceScript_script (s : State) : s.advanceScript.script = s.scriptNext := rfl

@[simp] theorem countdown_regs (s : State) : (countdown s).regs = { s.regs with timer := s.regs.timer - 1 } := rfl
@[simp] theorem countdown_cfg (s : State) : (countdown s).cfg = s.cfg := rfl
@[simp] theorem countdown_now (s : State) : (countdown s).now = s.now := rfl
@[simp] theorem countdown_trace (s : State) : (countdown s).trace = s.trace := rfl
@[simp] theorem countdown_results (s : State) : (countdown s).results = s.results := rfl
@[simp] theorem countdown_script (s : State) : (countdown s).script = s.script := rfl

@[simp] theorem beginFrame_regs (frame : Frame) (isInit : Bool) (s : State) :
    (beginFrame frame isInit s).regs =
      { line := .low, phase := .start, timer := BitVec.ofNat 16 startLowUs, shreg := frame, bitcnt := 16,
        initseq := isInit } := rfl
@[simp] theorem beginFrame_cfg (frame : Frame) (isInit : Bool) (s : State) :
    (beginFrame frame isInit s).cfg = s.cfg := rfl
@[simp] theorem beginFrame_now (frame : Frame) (isInit : Bool) (s : State) :
    (beginFrame frame isInit s).now = s.now := rfl
@[simp] theorem beginFrame_trace (frame : Frame) (isInit : Bool) (s : State) :
    (beginFrame frame isInit s).trace = s.trace ++ [⟨s.now, .w .low⟩] := rfl
@[simp] theorem beginFrame_results (frame : Frame) (isInit : Bool) (s : State) :
    (beginFrame frame isInit s).results = s.results := rfl
@[simp] theorem beginFrame_script (frame : Frame) (isInit : Bool) (s : State) :
    (beginFrame frame isInit s).script = s.script := rfl

end Sys2Proof.Machine
end

