-- ==== Sys2Proof/Laws/Ops.lean ====
section
/-! SUPPORT. What each shared operation can do, said once: the phase changes, the tick, the presentation of a command,
the hardware reset. Provers cite these instead of unfolding the operations. -/

namespace Sys2Proof.Machine

/-- The end of `START` as one record (R136). -/
theorem endStart_eq (s : State) :
    endStart s =
      { s with
        regs := { s.regs with line := .high, phase := .bitHi, timer := BitVec.ofNat 16 (hiUs (topBit s.regs.shreg)) }
        trace := s.trace ++ [⟨s.now, .w .high⟩] } := rfl

/-- The end of `BIT_HI` as one record (R137). -/
theorem endBitHi_eq (s : State) :
    endBitHi s =
      { s with
        regs := { s.regs with line := .low, phase := .bitLo, timer := BitVec.ofNat 16 (loUs (topBit s.regs.shreg)) }
        trace := s.trace ++ [⟨s.now, .w .low⟩] } := rfl

/-- The end of `BIT_LO` with more bits to send (R138). -/
theorem endBitLo_more {s : State} (h : 1 < s.regs.bitcnt) :
    endBitLo s =
      { s with
        regs :=
          { s.regs with
            line := .high, phase := .bitHi, shreg := s.regs.shreg <<< 1, bitcnt := s.regs.bitcnt - 1
            timer := BitVec.ofNat 16 (hiUs (topBit (s.regs.shreg <<< 1))) }
        trace := s.trace ++ [⟨s.now, .w .high⟩] } := by
  simp only [endBitLo, h, if_true]
  rfl

/-- The end of `BIT_LO` after the last bit (R139). -/
theorem endBitLo_last {s : State} (h : ¬ 1 < s.regs.bitcnt) :
    endBitLo s =
      { s with
        regs :=
          { s.regs with
            line := .high, phase := .settle, shreg := s.regs.shreg <<< 1, bitcnt := 0
            timer := BitVec.ofNat 16 s.cfg.settleUs }
        trace := s.trace ++ [⟨s.now, .w .high⟩] } := by
  simp only [endBitLo, h, if_false]
  rfl

/-- The end of `SETTLE` of the Reset frame of an `INIT` (R164). -/
theorem endSettle_init {s : State} (h : s.regs.initseq = true) :
    endSettle s =
      { s with regs := { s.regs with phase := .initWait, timer := BitVec.ofNat 16 s.cfg.initSettleUs } } := by
  rw [endSettle, if_pos h]
  rfl

/-- The end of `SETTLE` of a plain transmission (R140). -/
theorem endSettle_plain {s : State} (h : s.regs.initseq = false) :
    endSettle s = { s with regs := { s.regs with phase := .idle, timer := 0 } } := by
  rw [endSettle, if_neg (by simp [h])]
  rfl

/-- The end of `INIT_WAIT` (R164). -/
theorem endInitWait_eq (s : State) :
    endInitWait s = { s with regs := { s.regs with phase := .idle, timer := 0, initseq := false } } := rfl

/-- A tick in `IDLE` lets time pass and nothing else (R141). -/
theorem tick_idle {s : State} (h : s.regs.phase = .idle) : tick s = s.clock := by
  simp [tick, sequence, h]

/-- A tick with the timer above 1 counts down (R135). -/
theorem tick_countdown {s : State} (h : s.regs.phase ≠ .idle) (ht : 1 < s.regs.timer) :
    tick s = countdown s.clock := by
  rw [tick, sequence, State.clock_regs, if_neg h]
  exact if_pos ht

/-- A tick with the timer at its end changes the phase (R143). -/
theorem tick_endPhase {s : State} (h : s.regs.phase ≠ .idle) (ht : ¬ 1 < s.regs.timer) :
    tick s = endPhase s.clock := by
  rw [tick, sequence, State.clock_regs, if_neg h]
  exact if_neg ht

/-- Everything a phase change can do to a state that is not idle: the delay is over, then the phase's own end. -/
theorem endPhase_cases (s : State) (h : s.regs.phase ≠ .idle) :
    (s.regs.phase = .start ∧ endPhase s = endStart s.endDelay) ∨
    (s.regs.phase = .bitHi ∧ endPhase s = endBitHi s.endDelay) ∨
    (s.regs.phase = .bitLo ∧ endPhase s = endBitLo s.endDelay) ∨
    (s.regs.phase = .settle ∧ endPhase s = endSettle s.endDelay) ∨
    (s.regs.phase = .initWait ∧ endPhase s = endInitWait s.endDelay) := by
  cases hp : s.regs.phase <;> simp_all [endPhase]

/-- A command that sends a frame is taken in `IDLE` (R134, R167). -/
theorem presentFrame_idle {s : State} (h : s.regs.phase = .idle) (f : Frame) :
    presentFrame f s = beginFrame f false s.clock := by
  simp [presentFrame, h]

/-- A command that sends a frame is not looked at while busy (R166). -/
theorem presentFrame_busy {s : State} (h : s.regs.phase ≠ .idle) (f : Frame) : presentFrame f s = tick s := by
  simp [presentFrame, h]

/-- `INIT` is taken in `IDLE` (R164). -/
theorem presentInit_idle {s : State} (h : s.regs.phase = .idle) :
    presentInit s = beginFrame (resetFrame s.cfg) true (s.clock.writeLine .high) := by
  simp [presentInit, h]

/-- `INIT` is not looked at while busy (R166). -/
theorem presentInit_busy {s : State} (h : s.regs.phase ≠ .idle) : presentInit s = tick s := by
  simp [presentInit, h]

/-- The hardware reset as one record (R250). -/
theorem hardwareReset_eq (s : State) :
    hardwareReset s =
      { s with
        now := s.now + 1, regs := Regs.reset
        trace := s.trace ++ (if s.regs.line = .low then [⟨s.now + 1, .w .high⟩] else []) } := by
  by_cases h : s.regs.line = .low <;> simp [hardwareReset, h, State.clock, State.writeLine, State.record]

/-- A tick touches neither the configuration nor the results nor the script, and takes one microsecond. -/
theorem tick_frame (s : State) :
    (tick s).cfg = s.cfg ∧ (tick s).results = s.results ∧ (tick s).script = s.script ∧ (tick s).now = s.now + 1 := by
  by_cases h : s.regs.phase = .idle
  · rw [tick_idle h]; exact ⟨rfl, rfl, rfl, rfl⟩
  · by_cases ht : 1 < s.regs.timer
    · rw [tick_countdown h ht]; exact ⟨rfl, rfl, rfl, rfl⟩
    · rw [tick_endPhase h ht]
      rcases endPhase_cases s.clock h with ⟨-, e⟩ | ⟨-, e⟩ | ⟨-, e⟩ | ⟨-, e⟩ | ⟨-, e⟩ <;> rw [e]
      · exact ⟨rfl, rfl, rfl, rfl⟩
      · exact ⟨rfl, rfl, rfl, rfl⟩
      · by_cases hb : 1 < s.clock.endDelay.regs.bitcnt
        · rw [endBitLo_more hb]; exact ⟨rfl, rfl, rfl, rfl⟩
        · rw [endBitLo_last hb]; exact ⟨rfl, rfl, rfl, rfl⟩
      · cases hi : s.clock.endDelay.regs.initseq
        · rw [endSettle_plain hi]; exact ⟨rfl, rfl, rfl, rfl⟩
        · rw [endSettle_init hi]; exact ⟨rfl, rfl, rfl, rfl⟩
      · exact ⟨rfl, rfl, rfl, rfl⟩

/-- The script a tick leaves is the one it found. -/
theorem tick_script (s : State) : (tick s).script = s.script := (tick_frame s).2.2.1

end Sys2Proof.Machine
end

