-- ==== Sys2Proof/Laws/PerInstr.lean ====
section
/-! SUPPORT. The per-instruction family `EncodingFits`: a table word of an instruction has no bit above its format. -/

namespace Sys2Proof.Laws.EncodingFits

/-- The word the encoder gives an instruction, if it gives one, fits the number of bits it says. -/
def Statement (i : Instr) : Prop := ∀ w, encode i = some w → w.bits < 2 ^ w.nbits

/-- A command word fits 32 bits. -/
theorem cmd26_fits {o : Option CmdWord} {w : TableWord} (h : o.map (fun v => (⟨32, v.toNat⟩ : TableWord)) = some w) :
    w.bits < 2 ^ w.nbits := by
  cases o with
  | none => simp at h
  | some v =>
    obtain rfl := by simpa using h
    have := v.isLt
    simp only
    omega

/-- An instruction without a word fits vacuously. -/
theorem none_fits {i : Instr} (h : encode i = none) : Statement i := by
  intro w hw
  simp [h] at hw

theorem xmit (frame : Frame) : Statement (.xmit frame) :=
  fun _ h => cmd26_fits (o := encodeCmd26 (.xmit frame)) h
theorem send (opcode dataH dataL : Byte) : Statement (.send opcode dataH dataL) :=
  fun _ h => cmd26_fits (o := encodeCmd26 (.send opcode dataH dataL)) h
theorem init : Statement .init :=
  fun _ h => cmd26_fits (o := encodeCmd26 .init) h
theorem reservedCmdKind3 : Statement .reservedCmdKind3 :=
  fun _ h => cmd26_fits (o := encodeCmd26 .reservedCmdKind3) h

theorem encode (opcode dataH dataL : Nat) : Statement (.encode opcode dataH dataL) := by
  intro w h
  by_cases hb : (Instr.encode opcode dataH dataL).wellFormed = true
  · rw [Sys2Proof.encode, if_pos hb] at h
    simp only [Instr.wellFormed, isByte, Bool.and_eq_true, decide_eq_true_eq] at hb
    cases h
    simp only [encodeFunc24]
    omega
  · rw [Sys2Proof.encode, if_neg hb] at h
    cases h

theorem play : Statement .play := by
  intro w h
  cases h
  decide

theorem setvol (level : Int) : Statement (.setvol level) := by
  intro w h
  simp only [Sys2Proof.encode] at h
  split at h
  · cases h
    simp only
    omega
  · cases h

theorem playtrack (index : Int) : Statement (.playtrack index) := by
  intro w h
  simp only [Sys2Proof.encode] at h
  split at h
  · cases h
    simp only
    omega
  · cases h

theorem looptrack (index : Int) : Statement (.looptrack index) := none_fits rfl
theorem pause : Statement .pause := none_fits rfl
theorem stop : Statement .stop := none_fits rfl
theorem playpause : Statement .playpause := none_fits rfl
theorem prev : Statement .prev := none_fits rfl
theorem next : Statement .next := none_fits rfl
theorem setmodeLoop : Statement .setmodeLoop := none_fits rfl
theorem setmodeRandom : Statement .setmodeRandom := none_fits rfl
theorem reset : Statement .reset := none_fits rfl
theorem bind (level : Option Int) : Statement (.bind level) := none_fits rfl

end Sys2Proof.Laws.EncodingFits
end

