-- ==== Sys2Proof/Laws/Step.lean ====
section
/-! SUPPORT. What a step is, by what the ports carry on its tick. -/

namespace Sys2Proof.Machine

/-- A step on which `rst` is sampled (R250). -/
theorem step_rst {s : State} (h : s.rstNow = true) : step s = .next (hardwareReset s.advanceScript) := by
  simp [step, h]

/-- A step on which nothing is presented. -/
theorem step_none {s : State} (h : s.rstNow = false) (hp : s.presented = none) :
    step s = .next (tick s.advanceScript) := by
  simp [step, h, hp]

/-- A step on which an instruction is presented. -/
theorem step_some {s : State} {i : Instr} (h : s.rstNow = false) (hp : s.presented = some i) :
    step s = exec i s.advanceScript := by
  simp [step, h, hp]

/-- A command word on the port is one of the four kinds (R76). -/
theorem decodeCmd26_cases (w : CmdWord) :
    (∃ f, decodeCmd26 w = .xmit f) ∨ (∃ o h l, decodeCmd26 w = .send o h l) ∨ decodeCmd26 w = .init ∨
    decodeCmd26 w = .reservedCmdKind3 := by
  simp only [decodeCmd26]
  split
  · exact .inl ⟨_, rfl⟩
  · split
    · exact .inr (.inl ⟨_, _, _, rfl⟩)
    · split
      · exact .inr (.inr (.inl rfl))
      · exact .inr (.inr (.inr rfl))

end Sys2Proof.Machine
end

