-- ==== Sys2Proof/Laws/Script.lean ====
section
/-! SUPPORT. What the head of the host's script puts on the ports on a tick, and what is left of it. -/

namespace Sys2Proof.Machine

/-- The ports under a sample. -/
theorem rstNow_sample {s : State} {p : PortSample} {rest : List ScriptLine} (h : s.script = .sample p :: rest) :
    s.rstNow = p.rst := by
  simp [State.rstNow, h, skipWaits]

/-- The command of a sample is the decoding of its word when it is valid. -/
theorem presented_sample {s : State} {p : PortSample} {rest : List ScriptLine} (h : s.script = .sample p :: rest) :
    s.presented = if p.cmdValid then some (decodeCmd26 p.word) else none := by
  simp [State.presented, h, skipWaits]

/-- A sample lasts one tick. -/
theorem scriptNext_sample {s : State} {p : PortSample} {rest : List ScriptLine} (h : s.script = .sample p :: rest) :
    s.scriptNext = rest := by
  simp [State.scriptNext, h, skipWaits]

/-- A program line carries no hardware reset. -/
theorem rstNow_line {s : State} {i : Instr} {rest : List ScriptLine} (h : s.script = .line i :: rest) :
    s.rstNow = false := by
  simp [State.rstNow, h, skipWaits]

/-- A program line is taken in `IDLE` (R264). -/
theorem presented_line_idle {s : State} {i : Instr} {rest : List ScriptLine} (h : s.script = .line i :: rest)
    (hp : s.regs.phase = .idle) : s.presented = some i ∧ s.scriptNext = rest := by
  simp [State.presented, State.scriptNext, h, skipWaits, hp]

/-- A program line is held while the block is busy (R166). -/
theorem presented_line_busy {s : State} {i : Instr} {rest : List ScriptLine} (h : s.script = .line i :: rest)
    (hp : s.regs.phase ≠ .idle) : s.presented = none ∧ s.scriptNext = s.script := by
  simp [State.presented, State.scriptNext, h, skipWaits, hp]

/-- An empty script presents nothing and stays empty. -/
theorem ports_nil {s : State} (h : s.script = []) :
    s.rstNow = false ∧ s.presented = none ∧ s.scriptNext = [] := by
  simp [State.rstNow, State.presented, State.scriptNext, h, skipWaits]

/-- While the block is busy the port carries a command word, if anything: no program line is taken. -/
theorem presented_busy {s : State} (hb : s.regs.phase ≠ .idle) :
    s.presented = none ∨ ∃ w, s.presented = some (decodeCmd26 w) := by
  unfold State.presented
  split
  · split
    · exact .inr ⟨_, rfl⟩
    · exact .inl rfl
  · simp [hb]
  · exact .inl rfl

/-- A step of a busy block on which `rst` is not sampled is the sequencer's tick, whatever the host does (R166). -/
theorem step_busy {s : State} (hr : s.rstNow = false) (hb : s.regs.phase ≠ .idle) :
    step s = .next (tick s.advanceScript) := by
  have hb' : s.advanceScript.regs.phase ≠ .idle := hb
  rcases presented_busy hb with h | ⟨w, h⟩
  · exact step_none hr h
  · rw [step_some hr h]
    rcases decodeCmd26_cases w with ⟨f, e⟩ | ⟨o, h', l, e⟩ | e | e <;> rw [e]
    · simp only [exec, execXmit, presentFrame_busy hb']
    · simp only [exec, execSend, presentFrame_busy hb']
    · simp only [exec, execInit, presentInit_busy hb']
    · simp only [exec, execReservedCmdKind3]

end Sys2Proof.Machine
end

