-- ==== Sys2Proof/Laws/Run.lean ====
section
/-! SUPPORT. Runs of many steps: composition, and the one induction every phase needs, the countdown of its timer while
the host does whatever it likes short of a reset. -/

namespace Sys2Proof.Machine

/-- No step is needed to be where one is. -/
theorem reaches_zero (s : State) : Reaches 0 s s := rfl

/-- One step, then `n` more. -/
theorem reaches_succ {n : Nat} {s u t : State} (h : step s = .next u) (h' : Reaches n u t) : Reaches (n + 1) s t := by
  have hc : Sys2Proof.core.step s = .next u := h
  simp only [Reaches, Host.Core.run, hc]
  exact h'

/-- The first step of a run. -/
theorem reaches_succ_inv {n : Nat} {s t : State} (h : Reaches (n + 1) s t) : ∃ u, step s = .next u ∧ Reaches n u t := by
  simp only [Reaches, Host.Core.run] at h
  cases hs : step s with
  | next u =>
    have hc : Sys2Proof.core.step s = .next u := hs
    rw [hc] at h
    exact ⟨u, rfl, h⟩
  | fault r => cases r
  | refused r =>
    have hc : Sys2Proof.core.step s = .refused r := hs
    rw [hc] at h
    cases h

/-- Runs compose. -/
theorem reaches_add {m n : Nat} {s t u : State} (h : Reaches m s t) (h' : Reaches n t u) : Reaches (m + n) s u := by
  induction m generalizing s with
  | zero => cases h; rwa [Nat.zero_add]
  | succ m ih =>
    obtain ⟨v, hv, hr⟩ := reaches_succ_inv h
    rw [Nat.succ_add]
    exact reaches_succ hv (ih hr)

/-- A run has one end. -/
theorem reaches_unique {n : Nat} {s t u : State} (h : Reaches n s t) (h' : Reaches n s u) : t = u := by
  unfold Reaches at h h'
  rw [h] at h'
  cases h'
  rfl

/-- Dropping waits of 0 keeps a script free of resets. -/
theorem noReset_skipWaits {l : List ScriptLine} (h : NoReset l) : NoReset (skipWaits l) := by
  fun_induction skipWaits l with
  | case1 rest ih => exact ih fun x hx => h x (List.mem_cons_of_mem _ hx)
  | case2 rest ih => exact ih fun x hx => h x (List.mem_cons_of_mem _ hx)
  | case3 l => exact h

/-- A host that drives no reset drives none on this tick. -/
theorem noReset_rstNow {s : State} (h : NoReset s.script) : s.rstNow = false := by
  have hs := noReset_skipWaits h
  unfold State.rstNow
  split
  · rename_i p rest e
    rw [e] at hs
    exact hs _ (List.mem_cons_self ..) p rfl
  · rfl

/-- A host that drives no reset drives none later. -/
theorem noReset_scriptNext {s : State} (h : NoReset s.script) : NoReset s.scriptNext := by
  have hs := noReset_skipWaits h
  unfold State.scriptNext
  split <;> rename_i e <;> rw [e] at hs
  · exact fun x hx => hs x (List.mem_cons_of_mem _ hx)
  · split
    · exact fun x hx => hs x (List.mem_cons_of_mem _ hx)
    · exact hs
  · split
    · intro x hx p hp
      rcases List.mem_cons.mp hx with rfl | hx
      · cases hp
      · exact hs x (List.mem_cons_of_mem _ hx) p hp
    · exact hs
  · intro x hx p hp
    rcases List.mem_cons.mp hx with rfl | hx
    · cases hp
    · exact hs x (List.mem_cons_of_mem _ hx) p hp
  · exact hs

/-- While a phase lasts: after `j` steps, `j` less than the timer, only the timer, the tick number and the script have
moved (R135). -/
theorem reaches_countdown (j : Nat) (s : State) (hb : s.regs.phase ≠ .idle) (hn : NoReset s.script)
    (hj : j < s.regs.timer.toNat) :
    ∃ script, NoReset script ∧
      Reaches j s
        { s with
          regs := { s.regs with timer := s.regs.timer - BitVec.ofNat 16 j }, now := s.now + j, script := script } := by
  induction j generalizing s with
  | zero => exact ⟨s.script, hn, by simp [Reaches, Host.Core.run]⟩
  | succ j ih =>
    have ht : 1 < s.advanceScript.regs.timer := by
      rw [BitVec.lt_def]
      show 1 < s.regs.timer.toNat
      omega
    have hstep := step_busy (noReset_rstNow hn) hb
    rw [tick_countdown (s := s.advanceScript) hb ht] at hstep
    have hsub : (s.regs.timer - 1#16).toNat = s.regs.timer.toNat - 1 := by
      rw [BitVec.toNat_sub_of_le]
      · rfl
      · rw [BitVec.le_def]
        show 1 ≤ _
        omega
    obtain ⟨script, hn', hr⟩ := ih (countdown s.advanceScript.clock) hb (noReset_scriptNext hn)
      (by show j < (s.regs.timer - 1#16).toNat; omega)
    refine ⟨script, hn', ?_⟩
    have e : s.regs.timer - 1#16 - BitVec.ofNat 16 j = s.regs.timer - BitVec.ofNat 16 (j + 1) := by
      rw [BitVec.sub_sub, ← BitVec.ofNat_add, Nat.add_comm]
    have := reaches_succ hstep hr
    simpa [e, Nat.add_assoc, Nat.add_comm 1 j] using this

end Sys2Proof.Machine
end

