-- ==== Sys2Proof/Tests/Slice0.lean ====
section
/-! SUPPORT. The model's own tests. Expected values come from spec/95_test_vectors.md and the worked examples of the
rules; each test names its vector. After them, one witness for each statement that has hypotheses. -/

namespace Sys2Proof.Tests

open Sys2Proof Sys2Proof.Machine

/-- A configuration in the value sets of R7: the vectors' values where they name one; the triples the source does not
give are invented for the tests, as the vectors do (95 section 2.5). -/
def testCfg : Cfg :=
  { layout := .nested, settle := .us5000, initSettleExtra := 0, volMax := .thirty, trackClamp := .clamped
    trackMax := 1023
    optable :=
      { play := ⟨0x06, 0x01, 0x00⟩, pause := ⟨0x09, 0x02, 0x11⟩, stop := ⟨0x09, 0x03, 0x12⟩
        playpause := ⟨0x09, 0x04, 0x13⟩, prev := ⟨0x09, 0x05, 0x14⟩, next := ⟨0x09, 0x06, 0x15⟩
        modeLoop := ⟨0x0A, 0x07, 0x16⟩, modeRandom := ⟨0x0A, 0x08, 0x17⟩ }
    opSetvol := 0x04, opTrack := 0x03, loopBit := 11, resetTriple := ⟨0x0C, 0x00, 0x00⟩ }

/-- A state with these registers and this script. -/
def testState (r : Regs) (script : List ScriptLine) : State :=
  { regs := r, cfg := testCfg, now := 0, trace := [], results := [], script := script }

/-- The reset registers with this script. -/
def idleState (script : List ScriptLine) : State := testState Regs.reset script

/-- A command word on the port for one tick. -/
def word (kind : BitVec 2) (a b c : Byte) : ScriptLine := .sample ⟨false, true, kind, a, b, c⟩

/-- The register an outcome leaves, by a projection of the state. -/
def after {α : Type} (o : Host.Outcome State Fault Refusal) (f : State → α) : Option α :=
  match o with
  | .next t => some (f t)
  | .fault _ => none
  | .refused _ => none

/-- The frame an instruction loads, taken in `IDLE` under a configuration. -/
def loads (c : Cfg) (i : Instr) : Option Frame := after (exec i { idleState [] with cfg := c }) (·.regs.shreg)

/-! ### Well-formedness: an ill-formed term for each check -/

theorem test_wellFormed_byte_operands : WellFormed (.encode 255 255 255) := by decide
theorem test_illFormed_opcode : ¬ WellFormed (.encode 256 0 0) := by decide
theorem test_illFormed_dataH : ¬ WellFormed (.encode 0 256 0) := by decide
theorem test_illFormed_dataL : ¬ WellFormed (.encode 0 0 256) := by decide
theorem test_illFormed_has_no_word : encode (.encode 256 0 0) = none := by decide

/-! ### Decoding: words written out bit by bit from R76, R100, R71 -/

/-- XMIT: kind 00, eight ignored bits, frame 0x8000. -/
theorem test_decode_xmit : decodeTableWord 32 0b00_10101011_10000000_00000000 = some (.xmit 0x8000) := by decide
/-- SEND: kind 01, opcode 0x06, dataH 0x01, dataL 0x00 (SD1). -/
theorem test_decode_send : decodeTableWord 32 0b01_00000110_00000001_00000000 = some (.send 6 1 0) := by decide
/-- INIT: kind 10, ignored bits set. -/
theorem test_decode_init : decodeTableWord 32 0b10_11111111_00000000_11111111 = some .init := by decide
/-- Reserved: kind 11 (PB1). -/
theorem test_decode_reserved : decodeTableWord 32 0x3AABBCC = some .reservedCmdKind3 := by decide
/-- ENCODE: the operand triple of EN9. -/
theorem test_decode_encode : decodeTableWord 24 0b00000011_01000001_00000000 = some (.encode 3 0x41 0) := by decide
/-- PLAY: 0110 0001 0000 0000. -/
theorem test_decode_play : decodeTableWord 16 0b0110_0001_0000_0000 = some .play := by decide
/-- SETVOL: 0100 0000 vvvvvvvv. -/
theorem test_decode_setvol : decodeTableWord 16 0b0100_0000_0001_1110 = some (.setvol 30) := by decide
/-- PLAYTRACK: 0011 iiiiiiiiiiii. -/
theorem test_decode_playtrack : decodeTableWord 16 0b0011_0001_0010_1100 = some (.playtrack 300) := by decide
/-- A frame outside the pinned rows (R86), a bit above the format, no such format: refused by name. -/
theorem test_decode_frame_not_in_table : (decode 16 0x7100).toOption = none := by decide
theorem test_decode_bit_above : (decode 32 0x4000000).toOption = none := by decide
theorem test_decode_no_format : (decode 8 0).toOption = none := by decide

/-! ### One test per instruction, from the vectors -/

/-- TK1. -/
theorem test_xmit : after (exec (.xmit 0x8000) (idleState [])) (·.regs) =
    some ⟨.low, .start, 5000, 0x8000, 16, false⟩ := by decide
/-- SD5, EN9: dataH[7:4] is ORed onto the opcode nibble. -/
theorem test_send_overlap : loads testCfg (.send 0x03 0x41 0x00) = some 0x7100 := by decide
/-- SD2, EN7: opcode[7:4] is dropped. -/
theorem test_send_drops_opcode_high : loads testCfg (.send 0x16 0x01 0x00) = some 0x6100 := by decide
/-- IN6. -/
theorem test_init : after (exec .init (idleState [])) (·.regs) =
    some ⟨.low, .start, 5000, 0xC000, 16, true⟩ := by decide
/-- R164: W(1) then W(0). -/
theorem test_init_trace : after (exec .init (idleState [])) (·.trace) = some [⟨1, .w .high⟩, ⟨1, .w .low⟩] := by decide
/-- PB1. -/
theorem test_reserved : after (step (idleState [word 3 0xAA 0xBB 0xCC])) (·.regs) = some Regs.reset := by decide
/-- EN10, and the over-wide vector of R106. -/
theorem test_encode : after (exec (.encode 0x03 0x13 0x88) (idleState [])) (·.results) = some [0x3388] := by decide
theorem test_encode_over_wide :
    after (exec (.encode 0x04 0x00 0x11E) (idleState [])) (·.results) = some [0x411E] := by decide
/-- OP1. -/
theorem test_play : loads testCfg .play = some 0x6100 := by decide
/-- OP2 (conflict C1), OP10. -/
theorem test_setvol_clamps : loads testCfg (.setvol 35) = some 0x401E := by decide
theorem test_setvol_negative : loads testCfg (.setvol (-1000000)) = some 0x4000 := by decide
/-- OP3: the other volume range. -/
theorem test_setvol_ten : loads { testCfg with volMax := .ten } (.setvol 35) = some 0x400A := by decide
/-- OP12, OP16. -/
theorem test_playtrack : loads testCfg (.playtrack 300) = some 0x312C := by decide
theorem test_playtrack_clamped : loads testCfg (.playtrack 1024) = some 0x33FF := by decide
/-- OP20, OP23: passed through unclamped. -/
theorem test_playtrack_unclamped :
    loads { testCfg with trackClamp := .unclamped } (.playtrack 5000) = some 0x3388 := by decide
theorem test_playtrack_negative :
    loads { testCfg with trackClamp := .unclamped } (.playtrack (-1)) = some 0xFFFF := by decide
/-- OP26, OP27. -/
theorem test_looptrack : loads testCfg (.looptrack 300) = some 0x392C := by decide
theorem test_looptrack_top_bit : loads { testCfg with loopBit := 15 } (.looptrack 300) = some 0xB12C := by decide
/-- OP28: the frame of the configured triple, each operation its own. -/
theorem test_pause : loads testCfg .pause = some 0x9211 := by decide
theorem test_stop : loads testCfg .stop = some 0x9312 := by decide
theorem test_playpause : loads testCfg .playpause = some 0x9413 := by decide
theorem test_prev : loads testCfg .prev = some 0x9514 := by decide
theorem test_next : loads testCfg .next = some 0x9615 := by decide
theorem test_setmodeLoop : loads testCfg .setmodeLoop = some 0xA716 := by decide
theorem test_setmodeRandom : loads testCfg .setmodeRandom = some 0xA817 := by decide
theorem test_reset : loads testCfg .reset = some 0xC000 := by decide
/-- RESET is a plain SEND: no INIT_WAIT follows (R193). -/
theorem test_reset_is_plain : after (exec .reset (idleState [])) (·.regs.initseq) = some false := by decide
/-- OP30: INIT first, SETVOL 35 next. -/
theorem test_bind : after (exec (.bind (some 35)) (idleState [.line .play])) (·.script) =
    some [.line (.setvol 35), .line .play] := by decide
theorem test_bind_init : after (exec (.bind none) (idleState [])) (·.regs.initseq) = some true := by decide

/-! ### The sequencer, from TK1 to TK3, IN6, PB2, PB4 -/

/-- TK1: S_5000 to S_5001. -/
theorem test_endStart : after (step (testState ⟨.low, .start, 1, 0x8000, 16, false⟩ [])) (·.regs) =
    some ⟨.high, .bitHi, 600, 0x8000, 16, false⟩ := by decide
/-- TK1: to S_5601. -/
theorem test_endBitHi : after (step (testState ⟨.high, .bitHi, 1, 0x8000, 16, false⟩ [])) (·.regs) =
    some ⟨.low, .bitLo, 200, 0x8000, 16, false⟩ := by decide
/-- TK2: to S_5801, the shift before the test of the new top bit. -/
theorem test_endBitLo_more : after (step (testState ⟨.low, .bitLo, 1, 0x6258, 15, false⟩ [])) (·.regs) =
    some ⟨.high, .bitHi, 600, 0xC4B0, 14, false⟩ := by decide
/-- TK3: to S_17801. -/
theorem test_endBitLo_last : after (step (testState ⟨.low, .bitLo, 1, 0x8000, 1, false⟩ [])) (·.regs) =
    some ⟨.high, .settle, 5000, 0, 0, false⟩ := by decide
/-- TK1: S_22800 to S_22801. -/
theorem test_endSettle : after (step (testState ⟨.high, .settle, 1, 0, 0, false⟩ [])) (·.regs) =
    some Regs.reset := by decide
/-- IN6: to S_22801. -/
theorem test_endSettle_init : after (step (testState ⟨.high, .settle, 1, 0, 0, true⟩ [])) (·.regs) =
    some ⟨.high, .initWait, 20000, 0, 0, true⟩ := by decide
/-- IN6: S_42800 to S_42801. -/
theorem test_endInitWait : after (step (testState ⟨.high, .initWait, 1, 0, 0, true⟩ [])) (·.regs) =
    some Regs.reset := by decide
/-- PB2: a command presented while busy is ignored. -/
theorem test_busy_ignores : after (step (testState ⟨.low, .start, 4901, 0x8000, 16, false⟩ [word 0 0 0xFF 0xFF]))
    (·.regs) = some ⟨.low, .start, 4900, 0x8000, 16, false⟩ := by decide
/-- XM1 at the tick level: the start condition's D is on the trace when it is over, then W(1). -/
theorem test_endStart_trace : after (step (testState ⟨.low, .start, 1, 0x8000, 16, false⟩ [])) (·.lineEvents) =
    some [.d 5000, .w .high] := by decide
/-- IN1, R164: the settle of an INIT is a D of its own. -/
theorem test_endSettle_init_trace : after (step (testState ⟨.high, .settle, 1, 0, 0, true⟩ [])) (·.lineEvents) =
    some [.d 5000] := by decide
theorem test_endInitWait_trace : after (step (testState ⟨.high, .initWait, 1, 0, 0, true⟩ [])) (·.lineEvents) =
    some [.d 20000] := by decide
/-- PB4: reset in mid-frame beats a command presented on the same tick, and the trace gets W(1). -/
theorem test_reset_midframe : after (step (testState ⟨.low, .bitLo, 101, 0xFFFF, 16, false⟩
    [.sample ⟨true, true, 0, 0, 0, 0⟩])) (fun t => (t.regs, t.trace)) = some (Regs.reset, [⟨1, .w .high⟩]) := by decide
/-- PB5: reset in `IDLE` writes nothing. -/
theorem test_reset_idle : after (step (idleState [.sample ⟨true, false, 0, 0, 0, 0⟩])) (·.trace) = some [] := by
  decide
/-- A word stored where the next step fetches runs as the first instruction (SD1). -/
theorem test_fetch_send : after (step ((idleState []).withFetchWord 32 0x1060100)) (·.regs.shreg) = some 0x6100 := by
  decide
theorem test_fetch_setvol : after (step ((idleState []).withFetchWord 16 0x4023)) (·.regs.shreg) = some 0x401E := by
  decide

/-! ### Event level, from S4, XM1, IN2, P1 -/

/-- S5, XM1: the sum of the delays. -/
theorem test_xmit_duration : totalUs (xmitEvents testCfg 0x8000) = 22800 := by decide
/-- IN2. -/
theorem test_init_duration : totalUs (initEvents testCfg) = 42800 := by decide
/-- XM2: the beginning of the waveform of PLAY. -/
theorem test_play_waveform : (waveform .high (xmitEvents testCfg 0x6100)).take 5 =
    [(.low, 5000), (.high, 200), (.low, 600), (.high, 600), (.low, 200)] := by decide
/-- XL3 on XM8. -/
theorem test_demodulate : demodulate (waveform .high (xmitEvents testCfg 0xA55A)) = some 0xA55A := by decide
/-- P1: the command words of the program. -/
theorem test_command_words : (commandWords testCfg [.init, .setvol 35, .play]).map BitVec.toNat =
    [0x2000000, 0x104001E, 0x1060100] := by decide

/-! ### Witnesses: a state and operands that meet the hypotheses of each statement -/

/-- A busy state that meets R33. -/
def busyRegs : Regs := ⟨.low, .start, 5000, 0x8000, 16, false⟩

theorem busyRegs_inv : (testState busyRegs []).Inv := by
  constructor <;> simp [testState, busyRegs]

theorem idleState_inv (script : List ScriptLine) : (idleState script).Inv := by
  constructor <;> simp [idleState, testState, Regs.reset]

theorem testCfg_modesDiffer : CfgModesDiffer testCfg := by unfold CfgModesDiffer; decide

theorem noReset_nil : NoReset [] := by simp [NoReset]

theorem noReset_word : NoReset [word 0 0 0xFF 0xFF, .line .play] := by simp [NoReset, word]

theorem witness_EncodeThenDecode :
    encode (.playtrack 4095) = some ⟨16, 0x3FFF⟩ ∧ encode (.setvol 255) = some ⟨16, 0x40FF⟩ ∧
    encode (.setvol 0) = some ⟨16, 0x4000⟩ ∧ WellFormed (.encode 255 0 255) := by decide
theorem witness_XmitAccepted : (idleState [word 0 0xAB 0x61 0x00]).regs.phase = .idle ∧
    (idleState [word 0 0xAB 0x61 0x00]).script = .sample ⟨false, true, 0, 0xAB, 0x61, 0x00⟩ :: [] := by decide
theorem witness_SendAccepted : (idleState []).regs.phase = .idle := by decide
theorem witness_InitAccepted : (idleState [.line .init]).regs.phase = .idle := by decide
theorem witness_ReservedKindConsumed : (idleState [word 3 1 2 3]).regs.phase = .idle ∧
    (idleState [word 3 1 2 3]).script = .sample ⟨false, true, 3, 1, 2, 3⟩ :: [] := by decide
theorem witness_CommandsIgnoredWhileBusy : (testState busyRegs []).regs.phase ≠ .idle ∧
    (∀ o h l, Instr.play ≠ .encode o h l) ∧ (∀ o h l, Instr.bind (some 3) ≠ .encode o h l) :=
  ⟨by decide, by simp, by simp⟩
theorem witness_StepRunsThePresentedInstruction :
    (testState busyRegs [word 1 6 1 0]).script = .sample ⟨false, true, 1, 6, 1, 0⟩ :: [] ∧
    (idleState [.line .next]).script = .line .next :: [] ∧ (idleState [.line .next]).regs.phase = .idle ∧
    (testState busyRegs [.line .next]).script = .line .next :: [] ∧
    (testState busyRegs [.line .next]).regs.phase ≠ .idle ∧
    decodeTableWord 16 0x401E = some (.setvol 30) := by decide
theorem witness_ClampLaws : (0 : Int) ≤ 30 ∧ (-1 : Int) < 0 ∧ (30 : Int) < 31 ∧ (0 : Int) ≤ 30 ∧ (30 : Int) ≤ 30 ∧
    (-1 : Int) ≤ 31 := by decide
theorem witness_IndexSplit : (0 : Int) ≤ 65535 ∧ (65535 : Int) ≤ 65535 := by decide
theorem witness_SetVolumeFrame : (idleState []).regs.phase = .idle ∧ (idleState []).cfg.opSetvol = 0x04 := by decide
theorem witness_PlayTrackFrame : (idleState []).regs.phase = .idle ∧ (idleState []).cfg.opTrack = 0x03 := by decide
theorem witness_LoopTrackFrame : (idleState []).regs.phase = .idle := by decide
theorem witness_ArgumentlessOperations : (idleState []).regs.phase = .idle ∧
    (Instr.reset, (idleState []).cfg.resetTriple) ∈
      [(Instr.play, (idleState []).cfg.optable.play), (.reset, (idleState []).cfg.resetTriple)] := by decide
theorem witness_PlayFrame : (idleState []).regs.phase = .idle ∧
    (idleState []).cfg.optable.play = ⟨0x06, 0x01, 0x00⟩ := by decide
theorem witness_PlaylistModesDiffer : (idleState []).regs.phase = .idle ∧ CfgModesDiffer (idleState []).cfg :=
  ⟨by decide, testCfg_modesDiffer⟩
theorem witness_BindAccepted : (idleState [.line .play]).regs.phase = .idle := by decide
theorem witness_PseudoInstructionIsItsExpansion :
    expand (idleState []).cfg (.setvol 35) = [.send 0x04 0x00 0x1E] ∧
    expand (idleState []).cfg (.bind none) = [.init] := by decide
theorem witness_Countdown : (testState busyRegs []).rstNow = false ∧ (testState busyRegs []).regs.phase ≠ .idle ∧
    1 < (testState busyRegs []).regs.timer.toNat := by decide
theorem witness_EndOfStart : (testState ⟨.low, .start, 1, 0x8000, 16, false⟩ []).rstNow = false ∧
    (testState ⟨.low, .start, 1, 0x8000, 16, false⟩ []).regs.phase = .start ∧
    (testState ⟨.low, .start, 1, 0x8000, 16, false⟩ []).regs.timer = 1 := by decide
theorem witness_EndOfBitHigh : (testState ⟨.high, .bitHi, 1, 0, 16, false⟩ [.quiet 3]).rstNow = false ∧
    (testState ⟨.high, .bitHi, 1, 0, 16, false⟩ [.quiet 3]).regs.phase = .bitHi ∧
    (testState ⟨.high, .bitHi, 1, 0, 16, false⟩ [.quiet 3]).regs.timer = 1 := by decide
theorem witness_EndOfBitLowMoreBits : (testState ⟨.low, .bitLo, 1, 0, 2, false⟩ []).rstNow = false ∧
    (testState ⟨.low, .bitLo, 1, 0, 2, false⟩ []).regs.phase = .bitLo ∧
    (testState ⟨.low, .bitLo, 1, 0, 2, false⟩ []).regs.timer = 1 ∧
    1 < (testState ⟨.low, .bitLo, 1, 0, 2, false⟩ []).regs.bitcnt.toNat := by decide
theorem lastBit_inv : (testState ⟨.low, .bitLo, 1, 0x8000, 1, false⟩ []).Inv := by
  refine ⟨?_, ?_, ?_, ?_, ?_, ?_, ?_, ?_⟩ <;> decide
theorem witness_EndOfBitLowLastBit : (testState ⟨.low, .bitLo, 1, 0x8000, 1, false⟩ []).rstNow = false ∧
    (testState ⟨.low, .bitLo, 1, 0x8000, 1, false⟩ []).regs.phase = .bitLo ∧
    (testState ⟨.low, .bitLo, 1, 0x8000, 1, false⟩ []).regs.timer = 1 ∧
    (testState ⟨.low, .bitLo, 1, 0x8000, 1, false⟩ []).regs.bitcnt = 1 ∧
    (testState ⟨.low, .bitLo, 1, 0x8000, 1, false⟩ []).Inv :=
  ⟨by decide, by decide, by decide, by decide, lastBit_inv⟩
theorem witness_EndOfSettle : (testState ⟨.high, .settle, 1, 0, 0, false⟩ []).rstNow = false ∧
    (testState ⟨.high, .settle, 1, 0, 0, false⟩ []).regs.timer = 1 ∧
    (testState ⟨.high, .settle, 1, 0, 0, false⟩ []).regs.phase = .settle ∧
    (testState ⟨.high, .settle, 1, 0, 0, false⟩ []).regs.initseq = false := by decide
theorem witness_EndOfSettle_init : (testState ⟨.high, .settle, 1, 0, 0, true⟩ []).regs.phase = .settle ∧
    (testState ⟨.high, .settle, 1, 0, 0, true⟩ []).regs.initseq = true ∧
    (testState ⟨.high, .initWait, 1, 0, 0, true⟩ []).regs.phase = .initWait ∧
    (testState ⟨.high, .initWait, 1, 0, 0, true⟩ []).regs.timer = 1 ∧
    (testState ⟨.high, .initWait, 1, 0, 0, true⟩ []).rstNow = false := by decide
theorem witness_IdleStays : (idleState [.wait 7]).rstNow = false ∧ (idleState [.wait 7]).regs.phase = .idle ∧
    (idleState [.wait 7]).presented = none ∧ (idleState [word 3 0 0 0]).presented = some .reservedCmdKind3 ∧
    (idleState []).script = [] := by decide
theorem witness_HardwareReset : (testState busyRegs [.sample ⟨true, true, 0, 1, 2, 3⟩]).script =
    .sample ⟨true, true, 0, 1, 2, 3⟩ :: [] ∧ (⟨true, true, 0, 1, 2, 3⟩ : PortSample).rst = true := by decide
theorem witness_BusyBlockIgnoresTheHost : (testState busyRegs []).regs.phase ≠ .idle ∧
    NoReset (testState busyRegs []).script ∧ NoReset [word 0 0 0xFF 0xFF, .line .play] :=
  ⟨by decide, noReset_nil, noReset_word⟩
theorem witness_StepKeepsRegisterInvariants : (testState busyRegs []).Inv ∧
    step (testState busyRegs []) = .next (tick (testState busyRegs [])) ∧
    (idleState []).regs = Regs.reset ∧ Reaches 0 (idleState []) (idleState []) :=
  ⟨busyRegs_inv, rfl, rfl, rfl⟩
theorem witness_DelayIsExact : (testState busyRegs []).Inv ∧ (testState busyRegs []).regs.phase ≠ .idle ∧
    (testState busyRegs []).regs.timer.toNat = delayUs (testState busyRegs []).cfg (testState busyRegs []).regs ∧
    NoReset (testState busyRegs []).script := ⟨busyRegs_inv, by decide, by decide, noReset_nil⟩
theorem witness_PlaylistModesStayApart : CfgModesDiffer (testState busyRegs []).cfg ∧
    step (testState busyRegs []) = .next (tick (testState busyRegs [])) ∧
    Reaches 0 { State.reset with script := [.line .play] } { State.reset with script := [.line .play] } :=
  ⟨testCfg_modesDiffer, rfl, rfl⟩
/-- The state right after a command was taken on the first tick. -/
def busyTraced : State := { testState busyRegs [] with now := 1, trace := [⟨1, .w .low⟩] }
theorem busyTraced_traceInv : busyTraced.TraceInv where
  first := by simp [busyTraced]
  exact := by simp [busyTraced]
  past := by simp [busyTraced]
  running _ := ⟨⟨1, .w .low⟩, rfl, rfl⟩
  level := rfl
theorem witness_StepKeepsTraceInvariant : busyTraced.Inv ∧ busyTraced.TraceInv ∧
    step busyTraced = .next (tick busyTraced) := ⟨busyRegs_inv, busyTraced_traceInv, rfl⟩
theorem witness_InvariantsGiveRegisterRanges : (testState busyRegs []).Inv := busyRegs_inv
theorem witness_StepFrame : step (idleState [.line .play]) = .next (presentFrame 0x6100 (idleState [])) := rfl
theorem witness_LineChangesOnlyByWrites :
    step (idleState [.line .play]) = .next (presentFrame 0x6100 (idleState [])) ∧
    (presentFrame 0x6100 (idleState [])).regs.line ≠ (idleState [.line .play]).regs.line := ⟨rfl, by decide⟩
theorem witness_InstructionFrame : exec .play (idleState []) = .next (presentFrame 0x6100 (idleState [])) ∧
    (∀ o h l, Instr.play ≠ .encode o h l) ∧ (∀ v, Instr.play ≠ .bind (some v)) := ⟨rfl, by simp, by simp⟩
theorem witness_WaveformsAreReduced :
    (waveform .high [.d 1, .w .low, .d 2])[0]? = some (.high, 1) ∧
    (waveform .high [.d 1, .w .low, .d 2])[1]? = some (.low, 2) := by decide
theorem witness_PhaseTimetable : (idleState [word 0 0 0xFF 0xFF, .line .play]).regs = Regs.reset ∧
    NoReset (idleState [word 0 0 0xFF 0xFF, .line .play]).script := ⟨rfl, noReset_word⟩
theorem witness_OneFrameRunRefinesEventLevel : (idleState []).regs = Regs.reset ∧ NoReset (idleState []).script ∧
    sentFrame (idleState []).cfg (.setvol 35) = some 0x401E := ⟨rfl, noReset_nil, by decide⟩
theorem witness_InitRunRefinesEventLevel : (idleState []).regs = Regs.reset ∧ NoReset (idleState []).script :=
  ⟨rfl, noReset_nil⟩
theorem witness_TickLevelRefinesEventLevel : (idleState [word 2 0 0 0]).regs = Regs.reset ∧
    NoReset (idleState [word 2 0 0 0]).script := ⟨rfl, by simp [NoReset, idleState, testState, word]⟩
theorem witness_TraceIsWhatTheWireShows : (idleState [.line .play]).now = 0 ∧ (idleState [.line .play]).trace = [] ∧
    (idleState [.line .play]).regs.line = .high ∧
    (∀ o h l, ScriptLine.line (.encode o h l) ∉ (idleState [.line .play]).script) ∧
    Reaches 1 (idleState [.line .play]) (presentFrame 0x6100 (idleState [])) :=
  ⟨rfl, rfl, rfl, by simp [idleState, testState], rfl⟩
theorem witness_BackToBackCommands : (idleState [.line (.xmit 0x8000), .line (.xmit 0xFFFF)]).regs = Regs.reset ∧
    (idleState [.line (.xmit 0x8000), .line (.xmit 0xFFFF)]).script =
      [.line (.xmit 0x8000), .line (.xmit 0xFFFF)] := ⟨rfl, rfl⟩
theorem witness_ProgramRunsToItsEnd : (idleState []).regs = Regs.reset := rfl

end Sys2Proof.Tests
end

section
/-! What a step can do, said once: every outcome of `step`, and what one microsecond changes. -/

namespace Sys2Proof.Machine

/-- An instruction that sends one plain frame is the presentation of that frame (R85, R181). -/
theorem exec_of_sentFrame {i : Instr} {s : State} {f : Frame} (h : sentFrame s.cfg i = some f) :
    exec i s = .next (presentFrame f s) := by
  cases i <;> cases h <;> rfl

/-- Everything one step from a state can lead to. -/
inductive Stepped (s : State) : State → Prop where
  /-- `rst` was sampled (R250). -/
  | reset (h : s.rstNow = true) : Stepped s (hardwareReset s.advanceScript)
  /-- An `ENCODE` line was evaluated, which takes no time (R104). -/
  | evaluated (o h l : Nat) (results : List Frame) (hp : s.presented = some (.encode o h l)) :
    Stepped s { s.advanceScript with results := results }
  /-- No command was taken (R135 to R143, R166). -/
  | ticked : Stepped s (tick s.advanceScript)
  /-- A command that sends one frame was taken (R134). -/
  | sent (h : s.regs.phase = .idle) (f : Frame) : Stepped s (beginFrame f false s.advanceScript.clock)
  /-- An `INIT` was taken, on its own or as the first part of a `BIND` (R164, R194). -/
  | initialised (h : s.regs.phase = .idle) (level : Option Int) :
    Stepped s (beginFrame (resetFrame s.cfg) true
      ({ s.advanceScript with script := bindTail level ++ s.scriptNext }.clock.writeLine .high))

/-- The presentation of a frame is one of the outcomes of a step. -/
theorem presentFrame_stepped (s : State) (f : Frame) : Stepped s (presentFrame f s.advanceScript) := by
  by_cases hi : s.advanceScript.regs.phase = .idle
  · rw [presentFrame_idle hi]; exact .sent (s := s) hi f
  · rw [presentFrame_busy hi]; exact .ticked

/-- The presentation of `INIT` is one of the outcomes of a step. -/
theorem presentInit_stepped (s : State) : Stepped s (presentInit s.advanceScript) := by
  by_cases hi : s.advanceScript.regs.phase = .idle
  · rw [presentInit_idle hi]; exact .initialised (s := s) hi none
  · rw [presentInit_busy hi]; exact .ticked

/-- The meaning of the presented instruction is one of the outcomes of a step. -/
theorem exec_stepped {s t : State} {i : Instr} (hp : s.presented = some i) (h : exec i s.advanceScript = .next t) :
    Stepped s t := by
  cases hf : sentFrame s.advanceScript.cfg i with
  | some f =>
    rw [exec_of_sentFrame hf] at h
    cases h
    exact presentFrame_stepped s f
  | none =>
    cases i with
    | init => cases h; exact presentInit_stepped s
    | reservedCmdKind3 => cases h; exact .ticked
    | encode o hi lo => cases h; exact .evaluated o hi lo _ hp
    | bind level =>
      by_cases hi : s.advanceScript.regs.phase = .idle
      · rw [exec, execBind, if_pos hi, presentInit_idle (by exact hi)] at h
        cases h
        exact .initialised (s := s) hi level
      · rw [exec, execBind, if_neg hi] at h
        cases h
        exact .ticked
    | _ => cases hf

/-- The inversion of `step`: its result is one of the outcomes. -/
theorem stepped_of_step {s t : State} (h : step s = .next t) : Stepped s t := by
  cases hr : s.rstNow with
  | true => rw [step_rst hr] at h; cases h; exact .reset hr
  | false =>
    cases hp : s.presented with
    | none => rw [step_none hr hp] at h; cases h; exact .ticked
    | some i => rw [step_some hr hp] at h; exact exec_stepped hp h

/-! ### One microsecond -/

/-- One microsecond leads from `s` to `t`, on which the delays `delays` are over and then the line writes `writes` are
made, and nothing else reaches the trace (R10, R11). -/
structure Passes (s t : State) (delays : List Nat) (writes : List Level) : Prop where
  now : t.now = s.now + 1
  cfg : t.cfg = s.cfg
  trace : t.trace = s.trace ++ (delays.map Event.d ++ writes.map Event.w).map (TraceEntry.mk t.now)
  line : t.regs.line = writes.getLastD s.regs.line

/-- Such a microsecond ends with the block in `IDLE` or at the beginning of a phase: its whole delay is still to come
and something has just been recorded. -/
structure Enters (s t : State) (delays : List Nat) (writes : List Level) : Prop extends Passes s t delays writes where
  whole : t.regs.phase ≠ .idle → t.regs.timer.toNat = delayUs t.cfg t.regs
  recorded : t.regs.phase ≠ .idle → delays ≠ [] ∨ writes ≠ []

/-- Only the script has moved when the host advances, which no clause speaks of. -/
theorem Enters.of_advanceScript {s t : State} {ds : List Nat} {ws : List Level} (h : Enters s.advanceScript t ds ws) :
    Enters s t ds ws :=
  { now := h.now, cfg := h.cfg, trace := h.trace, line := h.line, whole := h.whole, recorded := h.recorded }

/-- A 16-bit timer holds every delay of the block. -/
theorem toNat_timer {n : Nat} (h : n ≤ 50000) : (BitVec.ofNat 16 n).toNat = n := by
  rw [BitVec.toNat_ofNat]; omega

theorem hiUs_le (b : Bool) : hiUs b ≤ 50000 := by cases b <;> decide

theorem loUs_le (b : Bool) : loUs b ≤ 50000 := by cases b <;> decide

theorem settleUs_le (c : Cfg) : c.settleUs ≤ 50000 := by
  unfold Cfg.settleUs; split <;> decide

theorem initSettleUs_le (c : Cfg) : c.initSettleUs ≤ 50000 := by
  have := c.initSettleExtra.isLt
  unfold Cfg.initSettleUs
  omega

/-- The end of a delay: its D is recorded, then the writes with which the next phase begins, and the next phase is
another one (R136 to R140, R164). -/
theorem tick_enters {s : State} (hb : s.regs.phase ≠ .idle) (ht : ¬ 1 < s.regs.timer) :
    ∃ ws, Enters s (tick s) [delayUs s.cfg s.regs] ws ∧ (tick s).regs.phase ≠ s.regs.phase := by
  rw [tick_endPhase hb ht]
  rcases endPhase_cases s.clock hb with ⟨hp, e⟩ | ⟨hp, e⟩ | ⟨hp, e⟩ | ⟨hp, e⟩ | ⟨hp, e⟩ <;>
    rw [e] <;> rw [State.clock_regs] at hp
  · rw [endStart_eq]
    exact ⟨[.high], ⟨⟨rfl, rfl, by simp, rfl⟩, fun _ => toNat_timer (hiUs_le _), by simp⟩, by simp [hp]⟩
  · rw [endBitHi_eq]
    exact ⟨[.low], ⟨⟨rfl, rfl, by simp, rfl⟩, fun _ => toNat_timer (loUs_le _), by simp⟩, by simp [hp]⟩
  · by_cases hm : 1 < s.clock.endDelay.regs.bitcnt
    · rw [endBitLo_more hm]
      exact ⟨[.high], ⟨⟨rfl, rfl, by simp, rfl⟩, fun _ => toNat_timer (hiUs_le _), by simp⟩, by simp [hp]⟩
    · rw [endBitLo_last hm]
      exact ⟨[.high], ⟨⟨rfl, rfl, by simp, rfl⟩, fun _ => toNat_timer (settleUs_le _), by simp⟩,
        by simp [hp]⟩
  · cases hi : s.clock.endDelay.regs.initseq with
    | true =>
      rw [endSettle_init hi]
      exact ⟨[], ⟨⟨rfl, rfl, by simp, rfl⟩, fun _ => toNat_timer (initSettleUs_le _), by simp⟩,
        by simp [hp]⟩
    | false =>
      rw [endSettle_plain hi]
      exact ⟨[], ⟨⟨rfl, rfl, by simp, rfl⟩, fun h => absurd rfl h, by simp⟩, by simp [hp]⟩
  · rw [endInitWait_eq]
    exact ⟨[], ⟨⟨rfl, rfl, by simp, rfl⟩, fun h => absurd rfl h, by simp⟩, by simp [hp]⟩

/-- The hardware reset writes the line only when it was low (R250). -/
theorem hardwareReset_enters (s : State) :
    Enters s (hardwareReset s) [] (if s.regs.line = .low then [.high] else []) := by
  rw [hardwareReset_eq]
  refine ⟨⟨rfl, rfl, ?_, ?_⟩, fun h => absurd rfl h, fun h => absurd rfl h⟩
  · split <;> simp
  · cases h : s.regs.line <;> simp [Regs.reset]

/-- A command that sends one frame begins with the low write of the start condition (R134). -/
theorem beginFrame_enters (f : Frame) (s : State) : Enters s (beginFrame f false s.clock) [] [.low] :=
  ⟨⟨rfl, rfl, by simp, rfl⟩, fun _ => toNat_timer (by decide), by simp⟩

/-- `INIT` writes the idle level and the start condition on one tick (R164). -/
theorem beginInit_enters (f : Frame) (s : State) (script : List ScriptLine) :
    Enters s (beginFrame f true ({ s with script := script }.clock.writeLine .high)) [] [.high, .low] :=
  ⟨⟨rfl, rfl, by simp, rfl⟩, fun _ => toNat_timer (by decide), by simp⟩

/-- What a step does to time, line and trace: an `ENCODE` line nothing; otherwise a microsecond passes, in `IDLE`, in
the course of a delay, at the end of a delay, or with a command or a hardware reset taken. -/
inductive StepEffect (s t : State) : Prop where
  | evaluated (o h l : Nat) (hp : s.presented = some (.encode o h l)) (now : t.now = s.now) (cfg : t.cfg = s.cfg)
    (regs : t.regs = s.regs) (trace : t.trace = s.trace)
  | idled (hp : s.regs.phase = .idle) (passes : Passes s t [] []) (regs : t.regs = s.regs)
  | counted (hb : s.regs.phase ≠ .idle) (ht : 1 < s.regs.timer) (passes : Passes s t [] [])
    (regs : t.regs = { s.regs with timer := s.regs.timer - 1 })
  | ended (hb : s.regs.phase ≠ .idle) (ht : ¬ 1 < s.regs.timer) (ws : List Level)
    (enters : Enters s t [delayUs s.cfg s.regs] ws)
  | taken (ws : List Level) (enters : Enters s t [] ws)

theorem stepEffect_of_tick (s : State) : StepEffect s (tick s.advanceScript) := by
  by_cases hb : s.regs.phase = .idle
  · rw [tick_idle (s := s.advanceScript) hb]
    exact .idled hb ⟨rfl, rfl, by simp, rfl⟩ rfl
  · by_cases ht : 1 < s.regs.timer
    · rw [tick_countdown (s := s.advanceScript) hb ht]
      exact .counted hb ht ⟨rfl, rfl, by simp, rfl⟩ rfl
    · obtain ⟨ws, h, -⟩ := tick_enters (s := s.advanceScript) hb ht
      exact .ended hb ht ws h.of_advanceScript

/-- The effect of a step, from its outcomes. -/
theorem stepEffect_of_step {s t : State} (h : step s = .next t) : StepEffect s t := by
  cases stepped_of_step h with
  | reset => exact .taken _ (hardwareReset_enters s.advanceScript).of_advanceScript
  | evaluated o hi lo results hp => exact .evaluated o hi lo hp rfl rfl rfl rfl
  | ticked => exact stepEffect_of_tick s
  | sent _ f => exact .taken _ (beginFrame_enters f s.advanceScript).of_advanceScript
  | initialised _ level => exact .taken _ (beginInit_enters _ s.advanceScript _).of_advanceScript

end Sys2Proof.Machine
end

section
/-! The trace as a history of the line: what appending a write or a finished delay keeps (R11, R12, R20, R22). -/

namespace Sys2Proof.Machine

/-- The clauses of the trace invariant about what is recorded, as a relation of the present tick, the present level and
the trace; the clause about the delay now running is kept apart. -/
structure History (now : Nat) (line : Level) (trace : List TraceEntry) : Prop where
  first : ∀ e, trace.head? = some e → ∃ v, e.event = .w v
  exact : trace.IsChain Follows
  past : ∀ e ∈ trace, e.tick ≤ now
  level : line = lastLevel .high trace

/-- The delay that is running began at the last entry and has passed but for what `TIMER` still counts. -/
def State.DelayRuns (s : State) : Prop :=
  ∃ e, s.trace.getLast? = some e ∧ e.tick + delayUs s.cfg s.regs = s.now + s.regs.timer.toNat

/-- The trace invariant is a history together with the running delay. -/
theorem traceInv_iff (s : State) :
    s.TraceInv ↔ History s.now s.regs.line s.trace ∧ (s.regs.phase ≠ .idle → s.DelayRuns) :=
  ⟨fun ⟨f, x, p, r, l⟩ => ⟨⟨f, x, p, l⟩, r⟩, fun ⟨⟨f, x, p, l⟩, r⟩ => ⟨f, x, p, r, l⟩⟩

theorem lastLevel_append (initial : Level) (es fs : List TraceEntry) :
    lastLevel initial (es ++ fs) = lastLevel (lastLevel initial es) fs := by
  induction es generalizing initial with
  | nil => rfl
  | cons e es ih =>
    obtain ⟨t, v | n⟩ := e
    · exact ih v
    · exact ih initial

/-- Time may pass without an event. -/
theorem History.later {now now' : Nat} {line : Level} {es : List TraceEntry} (h : History now line es)
    (hn : now ≤ now') : History now' line es :=
  { h with past := fun e he => (h.past e he).trans hn }

/-- A write at the present tick. -/
theorem History.write {now : Nat} {line : Level} {es : List TraceEntry} (h : History now line es) (v : Level) :
    History now v (es ++ [⟨now, .w v⟩]) where
  first e he := by
    cases es with
    | nil => cases he; exact ⟨v, rfl⟩
    | cons => exact h.first e he
  exact := by
    refine List.isChain_append.mpr ⟨h.exact, .singleton _, fun e he f hf => ?_⟩
    cases hf
    exact h.past e (List.mem_of_getLast? he)
  past e he := by
    rcases List.mem_append.mp he with he | he
    · exact h.past e he
    · cases List.mem_singleton.mp he; exact le_rfl
  level := by rw [lastLevel_append]; rfl

/-- A delay that is over exactly its microseconds after the last entry. -/
theorem History.delay {now n : Nat} {line : Level} {es : List TraceEntry} {last : TraceEntry}
    (h : History now line es) (hl : es.getLast? = some last) (hn : last.tick + n = now) :
    History now line (es ++ [⟨now, .d n⟩]) where
  first e he := by
    cases es with
    | nil => cases hl
    | cons => exact h.first e he
  exact := by
    refine List.isChain_append.mpr ⟨h.exact, .singleton _, fun e he f hf => ?_⟩
    cases hf
    cases Option.some.inj (hl.symm.trans he)
    exact hn.symm
  past e he := by
    rcases List.mem_append.mp he with he | he
    · exact h.past e he
    · cases List.mem_singleton.mp he; exact le_rfl
  level := by rw [lastLevel_append]; exact h.level

/-- Several writes at the present tick. -/
theorem History.writes {now : Nat} {line : Level} {es : List TraceEntry} (h : History now line es) (ws : List Level) :
    History now (ws.getLastD line) (es ++ (ws.map Event.w).map (TraceEntry.mk now)) := by
  induction ws generalizing line es with
  | nil => simpa using h
  | cons v ws ih =>
    rw [List.getLastD_cons]
    simpa using ih (h.write v)

/-- On entry into a phase the delay runs from what has just been recorded. -/
theorem Enters.delayRuns {s t : State} {ds : List Nat} {ws : List Level} (h : Enters s t ds ws)
    (hb : t.regs.phase ≠ .idle) : t.DelayRuns := by
  have hne : ds.map Event.d ++ ws.map Event.w ≠ [] := by simpa [imp_iff_not_or] using h.recorded hb
  refine ⟨⟨t.now, (ds.map Event.d ++ ws.map Event.w).getLast hne⟩, ?_, by rw [h.whole hb]⟩
  rw [h.trace, List.getLast?_append_of_ne_nil _ (by simpa using hne), List.getLast?_map,
    List.getLast?_eq_some_getLast hne]
  rfl

/-- The invariants of the registers give every running delay a microsecond still to count (R33). -/
theorem timer_pos_of_busy {s : State} (hi : s.Inv) (hb : s.regs.phase ≠ .idle) : 1 ≤ s.regs.timer.toNat := by
  cases hp : s.regs.phase with
  | idle => exact absurd hp hb
  | start => exact (hi.i2 hp).2.2.1
  | bitHi => exact (hi.i3 hp).2.2.2.1
  | bitLo => exact (hi.i4 hp).2.2.2.1
  | settle => exact (hi.i5 hp).2.2.2.1
  | initWait => exact (hi.i6 hp).2.2.2.2.1

/-- The delay of a phase does not depend on how much of it is still to come. -/
theorem delayUs_timer (c : Cfg) (r : Regs) (n : BitVec 16) : delayUs c { r with timer := n } = delayUs c r := rfl

/-- A countdown keeps the delay running. -/
theorem State.DelayRuns.count {s t : State} (h : s.DelayRuns) (ht : 1 < s.regs.timer) (hp : Passes s t [] [])
    (hr : t.regs = { s.regs with timer := s.regs.timer - 1 }) : t.DelayRuns := by
  obtain ⟨e, he, hn⟩ := h
  have ht : 1 < s.regs.timer.toNat := BitVec.lt_def.mp ht
  refine ⟨e, by simpa [hp.trace] using he, ?_⟩
  have hsub : (s.regs.timer - 1).toNat = s.regs.timer.toNat - 1 :=
    BitVec.toNat_sub_of_le (by rw [BitVec.le_def]; exact ht.le)
  rw [hp.cfg, hr, delayUs_timer, hp.now, hsub]
  omega

/-- A microsecond that ends no delay keeps the history. -/
theorem Passes.history {s t : State} {ws : List Level} (hp : Passes s t [] ws)
    (h : History s.now s.regs.line s.trace) : History t.now t.regs.line t.trace := by
  rw [hp.trace, hp.line]
  exact (h.later (hp.now ▸ Nat.le_succ _)).writes ws

/-- The microsecond that ends the running delay keeps the history. -/
theorem Passes.history_delay {s t : State} {ws : List Level} (hp : Passes s t [delayUs s.cfg s.regs] ws)
    (h : History s.now s.regs.line s.trace) (hr : s.DelayRuns) (ht : s.regs.timer.toNat = 1) :
    History t.now t.regs.line t.trace := by
  obtain ⟨e, he, hn⟩ := hr
  have hd := (h.later (hp.now ▸ Nat.le_succ _ : s.now ≤ t.now)).delay he (by rw [hp.now, hn, ht])
  rw [hp.trace, hp.line]
  simpa using hd.writes ws

end Sys2Proof.Machine

open Sys2Proof Sys2Proof.Machine

/-- Settles O37, by the effect of a step: nothing but an entry into a phase begins a delay, and nothing but the end of
its countdown records one. -/
theorem stepKeepsTraceInvariant : Obligations.StepKeepsTraceInvariant := by
  intro s t hi hinv h
  rw [traceInv_iff] at hinv ⊢
  obtain ⟨hist, hrun⟩ := hinv
  cases stepEffect_of_step h with
  | evaluated o hh l hp now cfg regs trace =>
    simp only [State.DelayRuns, now, cfg, regs, trace]
    exact ⟨hist, hrun⟩
  | idled hp passes regs => exact ⟨passes.history hist, fun hb => absurd (regs ▸ hp) hb⟩
  | counted hb ht passes regs => exact ⟨passes.history hist, fun _ => (hrun hb).count ht passes regs⟩
  | ended hb ht ws enters =>
    have hpos := timer_pos_of_busy hi hb
    have ht : ¬ 1 < s.regs.timer.toNat := fun h1 => ht (BitVec.lt_def.mpr h1)
    exact ⟨enters.history_delay hist (hrun hb) (by omega), enters.delayRuns⟩
  | taken ws enters => exact ⟨enters.history hist, enters.delayRuns⟩
end

section
/-! A delay from its first state to its last, whatever the host does short of a hardware reset (R11). -/

namespace Sys2Proof.Machine

/-- The last step of a delay: a run that comes to the state `u` in which `TIMER` is 1 goes on to another phase, with the
D of the delay that is over on the trace and the writes that begin that phase after it. -/
theorem reaches_delay_end {m : Nat} {s u : State} (hr : Reaches m s u) (hb : u.regs.phase ≠ .idle)
    (ht : u.regs.timer = 1) (hn : NoReset u.script) :
    ∃ (t : State) (ws : List Level), Reaches (m + 1) s t ∧ Passes u t [delayUs u.cfg u.regs] ws ∧
      t.regs.phase ≠ u.regs.phase := by
  have hlast : ¬ 1 < u.advanceScript.regs.timer := by simp [ht]
  obtain ⟨ws, henters, hp⟩ := tick_enters (s := u.advanceScript) hb hlast
  have hstep := reaches_succ (step_busy (noReset_rstNow hn) hb) (reaches_zero _)
  exact ⟨_, ws, reaches_add hr hstep, henters.of_advanceScript.toPasses, hp⟩

/-- A timer with one microsecond left. -/
theorem timer_sub_pred {timer : BitVec 16} (h : 1 ≤ timer.toNat) : timer - BitVec.ofNat 16 (timer.toNat - 1) = 1 := by
  bv_omega

end Sys2Proof.Machine

open Sys2Proof Sys2Proof.Machine

/-- Settles O56: the countdown for all but the last microsecond, then the step that ends the phase. -/
theorem delayIsExact : Obligations.DelayIsExact := by
  intro s hi hb htimer hn
  have hpos := timer_pos_of_busy hi hb
  rw [← htimer]
  refine ⟨fun m hm => ?_, ?_⟩
  · obtain ⟨script, -, hr⟩ := reaches_countdown m s hb hn hm
    exact ⟨_, hr, rfl, rfl, rfl, rfl⟩
  · obtain ⟨script, hn', hr⟩ := reaches_countdown (s.regs.timer.toNat - 1) s hb hn (by omega)
    obtain ⟨t, ws, hrun, hpass, hp⟩ := reaches_delay_end hr hb (timer_sub_pred hpos) hn'
    rw [Nat.sub_add_cancel hpos] at hrun
    refine ⟨t, ws, hrun, ?_, hp, ?_⟩
    · rw [hpass.now]
      simp only
      omega
    · rw [hpass.trace, delayUs_timer, ← htimer]
      simp [Function.comp_def]
end

section
/-! Waveforms: what the fold of R12 does with one event, that its segments are reduced, and the waveform of a list of
segments written out as events. -/

namespace Sys2Proof.Machine

/-- A write changes the current level and no segment. -/
@[simp] theorem waveStep_w (x : Level × List Segment) (v : Level) : waveStep x (.w v) = (v, x.2) := rfl

/-- A delay of no time is no segment. -/
@[simp] theorem waveStep_d_zero (x : Level × List Segment) : waveStep x (.d 0) = x := rfl

/-- A delay at the level of the newest segment lengthens it. -/
theorem waveStep_d_same {cur : Level} {m n : Nat} {segs : List Segment} (hn : n ≠ 0) :
    waveStep (cur, (cur, m) :: segs) (.d n) = (cur, (cur, m + n) :: segs) := by
  simp [waveStep, hn]

/-- A delay at another level than the newest segment, or the first one, is a new segment. -/
theorem waveStep_d_new {cur : Level} {n : Nat} {segs : List Segment} (hn : n ≠ 0)
    (h : ∀ g ∈ segs.head?, g.1 ≠ cur) : waveStep (cur, segs) (.d n) = (cur, (cur, n) :: segs) := by
  cases segs with
  | nil => simp [waveStep, hn]
  | cons g segs => simp [waveStep, hn, h g rfl]

/-- What a delay of some time does to the segments: it lengthens the newest one or puts a new one before it. -/
theorem waveStep_d_cases (cur : Level) (segs : List Segment) {n : Nat} (hn : n ≠ 0) :
    (∃ m rest, segs = (cur, m) :: rest ∧ waveStep (cur, segs) (.d n) = (cur, (cur, m + n) :: rest)) ∨
    ((∀ g ∈ segs.head?, g.1 ≠ cur) ∧ waveStep (cur, segs) (.d n) = (cur, (cur, n) :: segs)) := by
  by_cases h : ∀ g ∈ segs.head?, g.1 ≠ cur
  · exact .inr ⟨h, waveStep_d_new hn h⟩
  · cases segs with
    | nil => simp at h
    | cons g rest =>
      obtain ⟨l, m⟩ := g
      obtain rfl : l = cur := by simpa using h
      exact .inl ⟨m, rest, rfl, waveStep_d_same hn⟩

/-! ### Reduced segments -/

/-- Two neighbouring segments have different levels. -/
def LevelsDiffer (g h : Segment) : Prop := g.1 ≠ h.1

/-- No segment is empty and no two neighbours have one level. -/
def Reduced (segs : List Segment) : Prop := (∀ g ∈ segs, 0 < g.2) ∧ segs.IsChain LevelsDiffer

theorem reduced_cons (g : Segment) (segs : List Segment) :
    Reduced (g :: segs) ↔ 0 < g.2 ∧ (∀ h ∈ segs.head?, g.1 ≠ h.1) ∧ Reduced segs := by
  simp only [Reduced, List.forall_mem_cons, List.isChain_cons, LevelsDiffer]
  tauto

/-- One more event keeps the segments reduced. -/
theorem waveStep_reduced {x : Level × List Segment} (h : Reduced x.2) (e : Event) : Reduced (waveStep x e).2 := by
  obtain ⟨cur, segs⟩ := x
  cases e with
  | w v => exact h
  | d n =>
    by_cases hn : n = 0
    · subst hn; exact h
    · obtain ⟨m, rest, rfl, e⟩ | ⟨hd, e⟩ := waveStep_d_cases cur segs hn <;> rw [e]
      · obtain ⟨hm, hhead, hrest⟩ := (reduced_cons _ _).mp h
        exact (reduced_cons _ _).mpr ⟨Nat.add_pos_left hm n, hhead, hrest⟩
      · exact (reduced_cons _ _).mpr ⟨Nat.pos_of_ne_zero hn, fun g hg => (hd g hg).symm, h⟩

/-- The time in a list of segments. -/
def segmentsUs (segs : List Segment) : Nat := (segs.map Prod.snd).sum

/-- One more event adds its own time to that of the segments. -/
theorem waveStep_segmentsUs (x : Level × List Segment) (e : Event) :
    segmentsUs (waveStep x e).2 = segmentsUs x.2 + totalUs [e] := by
  obtain ⟨cur, segs⟩ := x
  cases e with
  | w v => rfl
  | d n =>
    by_cases hn : n = 0
    · subst hn; rfl
    · obtain ⟨m, rest, rfl, e⟩ | ⟨-, e⟩ := waveStep_d_cases cur segs hn <;> rw [e] <;>
        simp only [segmentsUs, List.map_cons, List.sum_cons, totalUs] <;> omega

theorem totalUs_cons (e : Event) (es : List Event) : totalUs (e :: es) = totalUs [e] + totalUs es := by
  cases e <;> simp [totalUs]

/-- Any events keep the segments reduced and add their time. -/
theorem foldl_waveStep_reduced (es : List Event) (x : Level × List Segment) (h : Reduced x.2) :
    Reduced (es.foldl waveStep x).2 ∧ segmentsUs (es.foldl waveStep x).2 = segmentsUs x.2 + totalUs es := by
  induction es generalizing x with
  | nil => exact ⟨h, rfl⟩
  | cons e es ih =>
    obtain ⟨hred, hus⟩ := ih (waveStep x e) (waveStep_reduced h e)
    exact ⟨hred, by rw [List.foldl_cons, hus, waveStep_segmentsUs, totalUs_cons e es, Nat.add_assoc]⟩

/-- A waveform is reduced and lasts as long as the delays of its trace (R12). -/
theorem waveform_reduced (initial : Level) (es : List Event) :
    Reduced (waveform initial es) ∧ segmentsUs (waveform initial es) = totalUs es := by
  obtain ⟨⟨hpos, hchain⟩, hus⟩ := foldl_waveStep_reduced es (initial, []) ⟨by simp, .nil⟩
  refine ⟨⟨by simpa [waveform] using hpos, ?_⟩, ?_⟩
  · exact List.isChain_reverse.mpr (hchain.imp fun _ _ => Ne.symm)
  · rw [segmentsUs, waveform, List.map_reverse, List.sum_reverse]
    simpa [segmentsUs] using hus

/-! ### Segments as events -/

/-- A segment as the events that make it. -/
def segmentEvents (g : Segment) : List Event := [.w g.1, .d g.2]

/-- Reduced segments, written after segments whose newest has another level, are added as they are. -/
theorem foldl_waveStep_segments (segs : List Segment) (h : Reduced segs) (cur : Level) (acc : List Segment)
    (hacc : ∀ g ∈ segs.head?, ∀ a ∈ acc.head?, a.1 ≠ g.1) :
    ((segs.flatMap segmentEvents).foldl waveStep (cur, acc)).2 = segs.reverse ++ acc := by
  induction segs generalizing cur acc with
  | nil => rfl
  | cons g segs ih =>
    obtain ⟨hpos, hhead, hsegs⟩ := (reduced_cons _ _).mp h
    have hnew : waveStep (g.1, acc) (.d g.2) = (g.1, g :: acc) := waveStep_d_new hpos.ne' (hacc g rfl)
    have hrest := ih hsegs g.1 (g :: acc) (by simpa using hhead)
    simpa [segmentEvents, hnew] using hrest

/-- The waveform of reduced segments written out as events is those segments. -/
theorem waveform_segmentEvents {segs : List Segment} (h : Reduced segs) (initial : Level) :
    waveform initial (segs.flatMap segmentEvents) = segs := by
  simp [waveform, foldl_waveStep_segments segs h initial [] (by simp)]

/-! ### The segments of a transmission -/

/-- The two segments of the slot of a bit (R74). -/
def slotSegments (b : Bool) : List Segment := [(.high, hiUs b), (.low, loUs b)]

/-- The segments of a transmission of these bits (R132). -/
def xmitSegments (c : Cfg) (bits : List Bool) : List Segment :=
  (.low, startLowUs) :: (bits.flatMap slotSegments ++ [(.high, c.settleUs)])

theorem hiUs_pos (b : Bool) : 0 < hiUs b := by cases b <;> decide

theorem loUs_pos (b : Bool) : 0 < loUs b := by cases b <;> decide

theorem settleUs_pos (c : Cfg) : 0 < c.settleUs := by
  unfold Cfg.settleUs; split <;> decide

/-- Low and high alternate all through a transmission. -/
theorem xmitSegments_reduced (c : Cfg) (bits : List Bool) : Reduced (xmitSegments c bits) := by
  have slots : ∀ n, 0 < n → Reduced ((.low, n) :: (bits.flatMap slotSegments ++ [(.high, c.settleUs)])) := by
    induction bits with
    | nil => intro n hn; simp [Reduced, LevelsDiffer, hn, settleUs_pos]
    | cons b bits ih =>
      intro n hn
      have := ih (loUs b) (loUs_pos b)
      simpa [slotSegments, reduced_cons (_, n), reduced_cons (_, hiUs b), hn, hiUs_pos] using this
  exact slots startLowUs (by decide)

theorem symbolEvents_eq (b : Bool) : symbolEvents b = (slotSegments b).flatMap segmentEvents := by
  cases b <;> rfl

/-- The bits the loop reads from a frame, the top bit first (R122, R125). -/
def loopBits (n : Nat) (f : Frame) : List Bool := (List.range n).map fun k => f.getLsbD (15 - k)

/-- The bit loop shifts, so its bits are those of the frame from bit 15 down. -/
theorem bitLoop_eq (n : Nat) (f : Frame) (hn : n ≤ 16) : bitLoop n f = (loopBits n f).flatMap symbolEvents := by
  induction n generalizing f with
  | zero => rfl
  | succ n ih =>
    have hshift : loopBits n (f <<< 1) = (List.range n).map fun k => f.getLsbD (15 - (k + 1)) := by
      refine List.map_congr_left fun k hk => ?_
      have hk := List.mem_range.mp hk
      have hlow : ¬ 15 - k < 1 := by omega
      have htop : 15 - k < 16 := by omega
      rw [BitVec.getLsbD_shiftLeft, Nat.sub_sub, decide_eq_true htop, decide_eq_false hlow]
      rfl
    rw [bitLoop, ih _ (by omega), hshift, loopBits, List.range_succ_eq_map]
    simp [topBit, Function.comp_def]

/-- The events of a transmission are its segments written out. -/
theorem xmitEvents_eq (c : Cfg) (f : Frame) :
    xmitEvents c f = (xmitSegments c (loopBits 16 f)).flatMap segmentEvents := by
  simp [xmitEvents, xmitSegments, bitLoop_eq 16 f le_rfl, List.flatMap_assoc, ← symbolEvents_eq, segmentEvents]

/-- The waveform of a transmission from any level (R132). -/
theorem waveform_xmitEvents (initial : Level) (c : Cfg) (f : Frame) :
    waveform initial (xmitEvents c f) = xmitSegments c (loopBits 16 f) := by
  rw [xmitEvents_eq, waveform_segmentEvents (xmitSegments_reduced c _)]

end Sys2Proof.Machine

open Sys2Proof Sys2Proof.Machine

/-- Settles O47, by the fold of R12 keeping its segments reduced. -/
theorem waveformsAreReduced : Obligations.WaveformsAreReduced := by
  intro initial es
  obtain ⟨⟨hpos, hchain⟩, hus⟩ := waveform_reduced initial es
  refine ⟨hpos, fun k g h hg hh => ?_, hus⟩
  obtain ⟨_, rfl⟩ := List.getElem?_eq_some_iff.mp hg
  obtain ⟨hlt, rfl⟩ := List.getElem?_eq_some_iff.mp hh
  exact List.isChain_iff_getElem.mp hchain k hlt

/-- Settles O45: the events are the segments written out, and the segments are reduced. -/
theorem transmissionWaveform : Obligations.TransmissionWaveform := by
  intro c f
  rw [waveform_xmitEvents, xmitSegments, loopBits, List.flatMap_map]
  rfl
end

section
/-! The index split (R77, R198): the two byte fields of an integer. -/

namespace Sys2Proof.Machine

theorem indexHigh_toNat (i : Int) : ((indexHigh i).toNat : Int) = i / 256 % 256 := by
  rw [indexHigh, BitVec.toNat_ofInt]
  omega

theorem indexLow_toNat (i : Int) : ((indexLow i).toNat : Int) = i % 256 := by
  rw [indexLow, BitVec.toNat_ofInt]
  omega

/-- The two bytes together are the 16-bit residue of the index. -/
theorem indexHigh_append_indexLow (i : Int) : indexHigh i ++ indexLow i = BitVec.ofInt 16 i := by
  have hh := indexHigh_toNat i
  have hl := indexLow_toNat i
  apply BitVec.eq_of_toNat_eq
  rw [BitVec.toNat_append, ← Nat.shiftLeft_add_eq_or_of_lt (indexLow i).isLt, Nat.shiftLeft_eq, BitVec.toNat_ofInt]
  omega

end Sys2Proof.Machine

open Sys2Proof Sys2Proof.Machine

/-- Settles O17, from the value of each byte and of the two together. -/
theorem indexSplit : Obligations.IndexSplit := by
  intro i
  refine ⟨indexHigh_toNat i, indexLow_toNat i, indexHigh_append_indexLow i, fun h0 h1 => ?_⟩
  rw [indexHigh_append_indexLow, BitVec.toNat_ofInt]
  omega
end

section
/-! The wire: the events of a trace with the time between them, microsecond by microsecond, against the levels that an
observer records (R12, R36, R141). -/

namespace Sys2Proof.Machine

/-! ### `ENCODE` lines -/

/-- The host evaluates no `ENCODE` line from now on. -/
def NoEncodeLine (script : List ScriptLine) : Prop := ∀ o h l, ScriptLine.line (.encode o h l) ∉ script

theorem skipWaits_suffix (l : List ScriptLine) : skipWaits l <:+ l := by
  fun_induction skipWaits l with
  | case1 rest ih => exact ih.trans (List.suffix_cons _ _)
  | case2 rest ih => exact ih.trans (List.suffix_cons _ _)
  | case3 l => exact List.suffix_rfl

/-- A program line that is still to come was there before. -/
theorem mem_of_line_mem_scriptNext {s : State} {i : Instr} (h : .line i ∈ s.scriptNext) : .line i ∈ s.script := by
  refine (skipWaits_suffix s.script).subset ?_
  unfold State.scriptNext at h
  split at h <;> rename_i e <;> rw [e]
  · exact List.mem_cons_of_mem _ h
  · split at h
    · exact List.mem_cons_of_mem _ h
    · exact h
  · split at h <;> simpa using h
  · simpa using h
  · exact h

/-- An `ENCODE` is presented by a program line only, never by the port (R104). -/
theorem encode_line_of_presented {s : State} {o h l : Nat} (hp : s.presented = some (.encode o h l)) :
    .line (.encode o h l) ∈ s.script := by
  refine (skipWaits_suffix s.script).subset ?_
  unfold State.presented at hp
  split at hp
  · next p rest e =>
    rcases decodeCmd26_cases p.word with ⟨f, hd⟩ | ⟨a, b, c, hd⟩ | hd | hd <;> simp [hd] at hp
  · next i rest e =>
    obtain ⟨-, rfl⟩ : s.regs.phase = .idle ∧ i = .encode o h l := by simpa using hp
    rw [e]
    exact List.mem_cons_self
  · cases hp

/-- A step adds no line to the script but the `SETVOL` of a `BIND` (R194). -/
theorem Stepped.line_mem {s t : State} (h : Stepped s t) {i : Instr} (hi : .line i ∈ t.script) :
    .line i ∈ s.script ∨ ∃ v, i = .setvol v := by
  cases h with
  | reset =>
    rw [hardwareReset_eq] at hi
    exact .inl (mem_of_line_mem_scriptNext hi)
  | evaluated => exact .inl (mem_of_line_mem_scriptNext hi)
  | ticked =>
    rw [tick_script] at hi
    exact .inl (mem_of_line_mem_scriptNext hi)
  | sent => exact .inl (mem_of_line_mem_scriptNext hi)
  | initialised _ level =>
    rcases List.mem_append.mp hi with hi | hi
    · cases level with
      | none => cases hi
      | some v => exact .inr ⟨v, by simpa [bindTail] using hi⟩
    · exact .inl (mem_of_line_mem_scriptNext hi)

/-- A step adds no `ENCODE` line. -/
theorem noEncodeLine_step {s t : State} (hs : NoEncodeLine s.script) (h : step s = .next t) :
    NoEncodeLine t.script := by
  intro o hi lo hm
  rcases (stepped_of_step h).line_mem hm with hm | ⟨v, hv⟩
  · exact hs o hi lo hm
  · cases hv

/-- Without an `ENCODE` line every step is a microsecond. -/
theorem step_passes {s t : State} (hs : NoEncodeLine s.script) (h : step s = .next t) :
    ∃ ds ws, Passes s t ds ws := by
  cases stepEffect_of_step h with
  | evaluated o hi lo hp => exact absurd (encode_line_of_presented hp) (hs o hi lo)
  | idled _ passes => exact ⟨_, _, passes⟩
  | counted _ _ passes => exact ⟨_, _, passes⟩
  | ended _ _ ws enters => exact ⟨_, _, enters.toPasses⟩
  | taken ws enters => exact ⟨_, _, enters.toPasses⟩

/-! ### The fold of a waveform over time -/

@[simp] theorem waveStep_d_fst (x : Level × List Segment) (n : Nat) : (waveStep x (.d n)).1 = x.1 := by
  obtain ⟨cur, segs⟩ := x
  by_cases hn : n = 0
  · subst hn; rfl
  · obtain ⟨m, rest, rfl, e⟩ | ⟨-, e⟩ := waveStep_d_cases cur segs hn <;> rw [e]

/-- Two delays with no write between them are one. -/
theorem waveStep_d_d (x : Level × List Segment) (m n : Nat) :
    waveStep (waveStep x (.d m)) (.d n) = waveStep x (.d (m + n)) := by
  obtain ⟨cur, segs⟩ := x
  by_cases hm : m = 0
  · subst hm; rw [waveStep_d_zero, Nat.zero_add]
  by_cases hn : n = 0
  · subst hn; rfl
  have hmn : m + n ≠ 0 := by omega
  obtain ⟨k, rest, rfl, e⟩ | ⟨hd, e⟩ := waveStep_d_cases cur segs hm
  · rw [e, waveStep_d_same hn, waveStep_d_same hmn, Nat.add_assoc]
  · rw [e, waveStep_d_same hn, waveStep_d_new hmn hd]

/-- The time between two ticks is a delay, of no time when there is none. -/
theorem foldl_gapEvents (x : Level × List Segment) (t u : Nat) :
    (gapEvents t u).foldl waveStep x = waveStep x (.d (u - t)) := by
  unfold gapEvents
  split
  · rfl
  · rw [Nat.sub_eq_zero_of_le (by omega)]; rfl

theorem foldl_writes (x : Level × List Segment) (ws : List Level) :
    (ws.map Event.w).foldl waveStep x = (ws.getLastD x.1, x.2) := by
  induction ws generalizing x with
  | nil => rfl
  | cons v ws ih =>
    rw [List.map_cons, List.foldl_cons, ih, List.getLastD_cons]
    rfl

/-- One more microsecond after everything recorded is a delay of one microsecond at the end. -/
theorem foldl_wireEvents_succ (es : List TraceEntry) (x : Level × List Segment) {t stop : Nat} (ht : t ≤ stop)
    (hes : ∀ e ∈ es, e.tick ≤ stop) :
    (wireEvents t (stop + 1) es).foldl waveStep x = waveStep ((wireEvents t stop es).foldl waveStep x) (.d 1) := by
  induction es generalizing t x with
  | nil =>
    rw [wireEvents, wireEvents, foldl_gapEvents, foldl_gapEvents, waveStep_d_d]
    congr 2
    omega
  | cons e es ih =>
    have hrest := fun e he => hes e (List.mem_cons_of_mem _ he)
    obtain ⟨u, v | n⟩ := e
    · have hu : u ≤ stop := hes _ List.mem_cons_self
      simp only [wireEvents, List.foldl_append, List.foldl_cons]
      exact ih _ hu hrest
    · exact ih x ht hrest

/-- Writes at the present tick follow the time up to it, and a delay that is over has no place of its own. -/
theorem wireEvents_recorded (t stop : Nat) (ds : List Nat) (ws : List Level) :
    wireEvents t stop ((ds.map Event.d ++ ws.map Event.w).map (TraceEntry.mk stop)) =
      gapEvents t stop ++ ws.map Event.w := by
  induction ds with
  | cons d ds ih => exact ih
  | nil =>
    induction ws generalizing t with
    | nil => simp [wireEvents]
    | cons v ws ih =>
      have hself : gapEvents stop stop = [] := if_neg (lt_irrefl stop)
      have hrest := ih stop
      rw [hself] at hrest
      exact congrArg (gapEvents t stop ++ Event.w v :: ·) hrest

/-- What is recorded at the present tick stands after all that was on the wire before. -/
theorem wireEvents_append_recorded (es : List TraceEntry) (t stop : Nat) (ds : List Nat) (ws : List Level) :
    wireEvents t stop (es ++ (ds.map Event.d ++ ws.map Event.w).map (TraceEntry.mk stop)) =
      wireEvents t stop es ++ ws.map Event.w := by
  induction es generalizing t with
  | nil => exact wireEvents_recorded t stop ds ws
  | cons e es ih =>
    obtain ⟨u, v | n⟩ := e
    · rw [List.cons_append, wireEvents, wireEvents, ih, List.append_assoc, List.cons_append]
    · exact ih t

/-! ### The wire of a state -/

/-- The level on the wire and its segments so far, newest first: the fold behind `State.wire`. -/
def State.wireFold (s : State) : Level × List Segment :=
  (wireEvents 0 s.now s.trace).foldl waveStep (.high, [])

theorem State.wire_eq (s : State) : s.wire = s.wireFold.2.reverse := rfl

/-- The recorded wire is up to date: nothing on it is later than the present tick, and its level is that of the line. -/
structure State.WireInv (s : State) : Prop where
  past : ∀ e ∈ s.trace, e.tick ≤ s.now
  level : s.wireFold.1 = s.regs.line

/-- A microsecond on the wire: one more microsecond of the old level, then the level of the line. -/
theorem Passes.wireFold {s t : State} {ds : List Nat} {ws : List Level} (h : Passes s t ds ws) (hs : s.WireInv) :
    t.wireFold = (t.regs.line, (waveStep s.wireFold (.d 1)).2) := by
  rw [State.wireFold, h.trace, wireEvents_append_recorded, List.foldl_append, foldl_writes, h.now,
    foldl_wireEvents_succ _ _ (Nat.zero_le _) hs.past, h.line, ← hs.level, waveStep_d_fst]
  rfl

/-- A microsecond keeps the recorded wire up to date. -/
theorem Passes.wireInv {s t : State} {ds : List Nat} {ws : List Level} (h : Passes s t ds ws) (hs : s.WireInv) :
    t.WireInv where
  level := by rw [h.wireFold hs]
  past e he := by
    rw [h.trace] at he
    rcases List.mem_append.mp he with he | he
    · rw [h.now]; exact (hs.past e he).trans (Nat.le_succ _)
    · obtain ⟨ev, -, rfl⟩ := List.mem_map.mp he
      exact le_rfl

/-- The levels of a run begin with the level of its first state. -/
theorem levels_succ {s u : State} (h : step s = .next u) (n : Nat) : levels (n + 1) s = s.regs.line :: levels n u := by
  rw [levels, h]

/-- What an observer makes of a run: a write of the level and a delay of one microsecond for each state of it. -/
def observe (levels : List Level) (x : Level × List Segment) : Level × List Segment :=
  (levels.flatMap fun l => [.w l, .d 1]).foldl waveStep x

theorem observe_cons (l : Level) (ls : List Level) (x : Level × List Segment) :
    observe (l :: ls) x = observe ls (waveStep (l, x.2) (.d 1)) := by
  simp [observe]

theorem runLength_eq (initial : Level) (ls : List Level) :
    runLength initial ls = (observe ls (initial, [])).2.reverse := rfl

/-- Observing a run from the segments on the wire at its beginning gives those on the wire at its end. -/
theorem observe_levels (n : Nat) {s t : State} (hs : s.WireInv) (hn : NoEncodeLine s.script) (h : Reaches n s t)
    (x : Level × List Segment) (hx : x.2 = s.wireFold.2) : (observe (levels n s) x).2 = t.wireFold.2 := by
  induction n generalizing s x with
  | zero => cases h; exact hx
  | succ n ih =>
    obtain ⟨u, hstep, hrest⟩ := reaches_succ_inv h
    obtain ⟨ds, ws, hpass⟩ := step_passes hn hstep
    have hnow : (s.regs.line, x.2) = s.wireFold := by rw [hx, ← hs.level]
    rw [levels_succ hstep, observe_cons, hnow]
    refine ih (hpass.wireInv hs) (noEncodeLine_step hn hstep) hrest _ ?_
    rw [hpass.wireFold hs]

end Sys2Proof.Machine

open Sys2Proof Sys2Proof.Machine

/-- Settles O53, by the microseconds of the run: each is one of the levels the observer sees, and one more microsecond
of that level on the wire. -/
theorem traceIsWhatTheWireShows : Obligations.TraceIsWhatTheWireShows := by
  intro n s t hnow htrace hline hscript h
  have hzero : s.wireFold = (.high, []) := by rw [State.wireFold, hnow, htrace]; rfl
  have hinv : s.WireInv := ⟨by simp [htrace], by rw [hzero, hline]⟩
  rw [State.wire_eq, runLength_eq, observe_levels n hinv hscript h _ (by rw [hzero])]
end

section
/-! The register invariants of R33, read off the phase: the level of the line, the microseconds still to count, and the
frame with the bits of it still to send. -/

namespace Sys2Proof.Machine

/-- The level of the line in each phase (R33, I8 with the levels of I1 to I6). -/
def Phase.level : Phase → Level
  | .start | .bitLo => .low
  | .idle | .bitHi | .settle | .initWait => .high

/-- The line is low in `START` and `BIT_LO` and in no other phase (I8). -/
theorem Phase.level_eq_low_iff (p : Phase) : p.level = .low ↔ p = .start ∨ p = .bitLo := by
  cases p <;> simp [Phase.level]

/-- The lowest `n` bits of a frame are 0. -/
def LowZero (n : Nat) (f : Frame) : Prop := ∀ k : Nat, k < n → f.getLsbD k = false

/-- What the working copy, the bit count and the `INIT` mark are in each phase (R33). -/
def Regs.FrameInv (r : Regs) : Prop :=
  match r.phase with
  | .idle => r.shreg = 0 ∧ r.bitcnt = 0 ∧ r.initseq = false
  | .start => r.bitcnt = 16
  | .bitHi | .bitLo => 1 ≤ r.bitcnt.toNat ∧ r.bitcnt.toNat ≤ 16 ∧ LowZero (16 - r.bitcnt.toNat) r.shreg
  | .settle => r.shreg = 0 ∧ r.bitcnt = 0
  | .initWait => r.shreg = 0 ∧ r.bitcnt = 0 ∧ r.initseq = true

/-- The invariants of R33 by register: no phase counts more than its delay, and every phase but `IDLE` still has a
microsecond to count. -/
structure PhaseInv (c : Cfg) (r : Regs) : Prop where
  level : r.line = r.phase.level
  timer_le : r.timer.toNat ≤ delayUs c r
  timer_pos : r.phase ≠ .idle → 1 ≤ r.timer.toNat
  frame : r.FrameInv

/-- I1 to I8 say what each phase says of its registers. -/
theorem regsInv_iff (c : Cfg) (r : Regs) : RegsInv c r ↔ PhaseInv c r := by
  obtain ⟨line, phase, timer, shreg, bitcnt, initseq⟩ := r
  have hz : timer = 0 ↔ timer.toNat = 0 := by bv_omega
  constructor
  · rintro ⟨i1, i2, i3, i4, i5, i6, i7, -⟩
    cases phase with
    | idle =>
      obtain ⟨hl, ht, hs, hb, hi⟩ := i1 rfl
      exact ⟨hl, (hz.mp ht).le, fun h => absurd rfl h, hs, hb, hi⟩
    | start =>
      obtain ⟨hl, hb, hpos, hle⟩ := i2 rfl
      exact ⟨hl, hle, fun _ => hpos, hb⟩
    | bitHi =>
      obtain ⟨hl, hb, hb', hpos, hle⟩ := i3 rfl
      exact ⟨hl, hle, fun _ => hpos, hb, hb', i7 (.inl rfl)⟩
    | bitLo =>
      obtain ⟨hl, hb, hb', hpos, hle⟩ := i4 rfl
      exact ⟨hl, hle, fun _ => hpos, hb, hb', i7 (.inr rfl)⟩
    | settle =>
      obtain ⟨hl, hb, hs, hpos, hle⟩ := i5 rfl
      exact ⟨hl, hle, fun _ => hpos, hs, hb⟩
    | initWait =>
      obtain ⟨hl, hi, hb, hs, hpos, hle⟩ := i6 rfl
      exact ⟨hl, hle, fun _ => hpos, hs, hb, hi⟩
  · rintro ⟨hl, hle, hpos, hf⟩
    constructor
    case i1 => rintro rfl; exact ⟨hl, hz.mpr (Nat.le_zero.mp hle), hf⟩
    case i2 => rintro rfl; exact ⟨hl, hf, hpos nofun, hle⟩
    case i3 =>
      rintro rfl
      obtain ⟨hb, hb', -⟩ := hf
      exact ⟨hl, hb, hb', hpos nofun, hle⟩
    case i4 =>
      rintro rfl
      obtain ⟨hb, hb', -⟩ := hf
      exact ⟨hl, hb, hb', hpos nofun, hle⟩
    case i5 =>
      rintro rfl
      obtain ⟨hs, hb⟩ := hf
      exact ⟨hl, hb, hs, hpos nofun, hle⟩
    case i6 =>
      rintro rfl
      obtain ⟨hs, hb, hi⟩ := hf
      exact ⟨hl, hi, hb, hs, hpos nofun, hle⟩
    case i7 =>
      rintro (rfl | rfl)
      · exact hf.2.2
      · exact hf.2.2
    case i8 => exact (Eq.congr_left hl).trans (Phase.level_eq_low_iff phase)

/-! ### The end of a delay -/

/-- Every delay of the block takes time. -/
theorem delayUs_pos (c : Cfg) {r : Regs} (hb : r.phase ≠ .idle) : 1 ≤ delayUs c r := by
  unfold delayUs
  split
  · contradiction
  · decide
  · exact hiUs_pos _
  · exact loUs_pos _
  · exact settleUs_pos c
  · exact Nat.le_add_right_of_le (by decide)

/-- Every delay of the block is in the range of `TIMER` (R25). -/
theorem delayUs_le (c : Cfg) (r : Regs) : delayUs c r ≤ 50000 := by
  unfold delayUs
  split
  · decide
  · decide
  · exact hiUs_le _
  · exact loUs_le _
  · exact settleUs_le c
  · exact initSettleUs_le c

/-- Registers with the whole delay of their phase still to count. -/
theorem PhaseInv.of_whole {c : Cfg} {r : Regs} (hl : r.line = r.phase.level) (ht : r.timer.toNat = delayUs c r)
    (hf : r.FrameInv) : PhaseInv c r :=
  ⟨hl, ht.le, fun hb => ht ▸ delayUs_pos c hb, hf⟩

/-- Shifting brings one more 0 in at the low end. -/
theorem LowZero.shift {n : Nat} {f : Frame} (h : LowZero n f) : LowZero (n + 1) (f <<< 1) := by
  intro k hk
  cases k with
  | zero => simp
  | succ k => simp [h k (by omega)]

/-- A frame whose sixteen bits are 0 is 0. -/
theorem LowZero.eq_zero {f : Frame} (h : LowZero 16 f) : f = 0 := by
  refine BitVec.eq_of_getLsbD_eq fun k hk => ?_
  rw [h k hk]
  exact BitVec.getLsbD_zero.symm

/-- The end of `START` (R136). -/
theorem endStart_inv {s : State} (hp : s.regs.phase = .start) (h : PhaseInv s.cfg s.regs) :
    PhaseInv s.cfg (endStart s).regs := by
  obtain ⟨-, -, -, hf⟩ := h
  have hb : s.regs.bitcnt = 16 := by simpa [Regs.FrameInv, hp] using hf
  rw [endStart_eq]
  refine .of_whole rfl (toNat_timer (hiUs_le _)) ?_
  simp [Regs.FrameInv, hb, LowZero]

/-- The end of `BIT_HI` (R137). -/
theorem endBitHi_inv {s : State} (hp : s.regs.phase = .bitHi) (h : PhaseInv s.cfg s.regs) :
    PhaseInv s.cfg (endBitHi s).regs := by
  obtain ⟨-, -, -, hf⟩ := h
  rw [endBitHi_eq]
  refine .of_whole rfl (toNat_timer (loUs_le _)) ?_
  simpa [Regs.FrameInv, hp] using hf

/-- The end of `BIT_LO`: one more low bit of the working copy is 0, and after the last bit all sixteen are (R138,
R139). -/
theorem endBitLo_inv {s : State} (hp : s.regs.phase = .bitLo) (h : PhaseInv s.cfg s.regs) :
    PhaseInv s.cfg (endBitLo s).regs := by
  obtain ⟨-, -, -, hf⟩ := h
  obtain ⟨hlo, hhi, hz⟩ : 1 ≤ s.regs.bitcnt.toNat ∧ s.regs.bitcnt.toNat ≤ 16 ∧
      LowZero (16 - s.regs.bitcnt.toNat) s.regs.shreg := by simpa [Regs.FrameInv, hp] using hf
  have hshift := hz.shift
  by_cases hm : 1 < s.regs.bitcnt
  · have hsub : (s.regs.bitcnt - 1).toNat = s.regs.bitcnt.toNat - 1 := by bv_omega
    have hlt : 1 < s.regs.bitcnt.toNat := BitVec.lt_def.mp hm
    have hn : 16 - s.regs.bitcnt.toNat + 1 = 16 - (s.regs.bitcnt - 1).toNat := by omega
    rw [hn] at hshift
    rw [endBitLo_more hm]
    exact .of_whole rfl (toNat_timer (hiUs_le _)) ⟨by simp only; omega, by simp only; omega, hshift⟩
  · have hn : 16 - s.regs.bitcnt.toNat + 1 = 16 := by bv_omega
    rw [hn] at hshift
    rw [endBitLo_last hm]
    exact .of_whole rfl (toNat_timer (settleUs_le _)) ⟨hshift.eq_zero, rfl⟩

/-- The end of `SETTLE` (R140, R164). -/
theorem endSettle_inv {s : State} (hp : s.regs.phase = .settle) (h : PhaseInv s.cfg s.regs) :
    PhaseInv s.cfg (endSettle s).regs := by
  obtain ⟨hl, -, -, hf⟩ := h
  rw [hp] at hl
  obtain ⟨hs, hb⟩ : s.regs.shreg = 0 ∧ s.regs.bitcnt = 0 := by simpa [Regs.FrameInv, hp] using hf
  cases hi : s.regs.initseq with
  | true => rw [endSettle_init hi]; exact .of_whole hl (toNat_timer (initSettleUs_le _)) ⟨hs, hb, hi⟩
  | false => rw [endSettle_plain hi]; exact .of_whole hl rfl ⟨hs, hb, hi⟩

/-- The end of `INIT_WAIT` (R164). -/
theorem endInitWait_inv {s : State} (hp : s.regs.phase = .initWait) (h : PhaseInv s.cfg s.regs) :
    PhaseInv s.cfg (endInitWait s).regs := by
  obtain ⟨hl, -, -, hf⟩ := h
  rw [hp] at hl
  obtain ⟨hs, hb, -⟩ : s.regs.shreg = 0 ∧ s.regs.bitcnt = 0 ∧ s.regs.initseq = true := by
    simpa [Regs.FrameInv, hp] using hf
  rw [endInitWait_eq]
  exact .of_whole hl rfl ⟨hs, hb, rfl⟩

/-! ### Every step -/

/-- Counting down stays within the delay of the phase (R135). -/
theorem PhaseInv.countdown {c : Cfg} {r : Regs} (h : PhaseInv c r) (ht : 1 < r.timer) :
    PhaseInv c { r with timer := r.timer - 1 } := by
  obtain ⟨hl, hle, -, hf⟩ := h
  have hsub : (r.timer - 1).toNat = r.timer.toNat - 1 := by bv_omega
  have ht : 1 < r.timer.toNat := BitVec.lt_def.mp ht
  refine ⟨hl, ?_, fun _ => ?_, hf⟩
  · rw [delayUs_timer, hsub]; omega
  · rw [hsub]; omega

/-- One tick of the sequencer. -/
theorem tick_inv {s : State} (h : PhaseInv s.cfg s.regs) : PhaseInv s.cfg (tick s).regs := by
  by_cases hb : s.regs.phase = .idle
  · rw [tick_idle hb]; exact h
  by_cases ht : 1 < s.regs.timer
  · rw [tick_countdown hb ht]; exact h.countdown ht
  rw [tick_endPhase hb ht]
  rcases endPhase_cases s.clock hb with ⟨hp, e⟩ | ⟨hp, e⟩ | ⟨hp, e⟩ | ⟨hp, e⟩ | ⟨hp, e⟩ <;> rw [e]
  · exact endStart_inv (s := s.clock.endDelay) hp h
  · exact endBitHi_inv (s := s.clock.endDelay) hp h
  · exact endBitLo_inv (s := s.clock.endDelay) hp h
  · exact endSettle_inv (s := s.clock.endDelay) hp h
  · exact endInitWait_inv (s := s.clock.endDelay) hp h

/-- The reset registers meet the invariants under every configuration (R34). -/
theorem phaseInv_reset (c : Cfg) : PhaseInv c Regs.reset := .of_whole rfl rfl ⟨rfl, rfl, rfl⟩

/-- The registers a command is taken with meet the invariants (R134, R164). -/
theorem beginFrame_inv (c : Cfg) (f : Frame) (isInit : Bool) (s : State) :
    PhaseInv c (beginFrame f isInit s).regs :=
  .of_whole rfl (toNat_timer (by decide)) rfl

/-- One step keeps I1 to I8, by its outcomes. -/
theorem Stepped.inv {s t : State} (h : Stepped s t) (hs : s.Inv) : t.Inv := by
  rw [State.Inv, regsInv_iff] at hs ⊢
  cases h with
  | reset => rw [hardwareReset_eq]; exact phaseInv_reset _
  | evaluated => exact hs
  | ticked =>
    obtain ⟨hcfg, -⟩ := tick_frame s.advanceScript
    rw [hcfg]
    exact tick_inv (s := s.advanceScript) hs
  | sent _ f => exact beginFrame_inv _ f false _
  | initialised => exact beginFrame_inv _ _ true _

/-- A run keeps I1 to I8. -/
theorem inv_of_reaches {n : Nat} {s t : State} (hs : s.Inv) (h : Reaches n s t) : t.Inv := by
  induction n generalizing s with
  | zero => cases h; exact hs
  | succ n ih =>
    obtain ⟨u, hstep, hrest⟩ := reaches_succ_inv h
    exact ih ((stepped_of_step hstep).inv hs) hrest

/-- A state with the reset registers meets I1 to I8. -/
theorem inv_of_regs_reset {s : State} (h : s.regs = Regs.reset) : s.Inv := by
  rw [State.Inv, regsInv_iff, h]
  exact phaseInv_reset _

/-! ### The ranges of the registers -/

/-- `TIMER` is 0 in `IDLE` and nowhere else (R25). -/
theorem PhaseInv.timer_eq_zero_iff {c : Cfg} {r : Regs} (h : PhaseInv c r) : r.timer = 0 ↔ r.phase = .idle := by
  obtain ⟨-, hle, hpos, -⟩ := h
  refine ⟨fun ht => by_contra fun hb => ?_, fun hp => ?_⟩
  · have := hpos hb
    simp [ht] at this
  · rw [delayUs, hp] at hle
    exact BitVec.eq_of_toNat_eq (Nat.le_zero.mp hle)

/-- The bit count is at most 16, and 0 in the phases that send no bit and nowhere else (R24). -/
theorem Regs.FrameInv.bitcnt {r : Regs} (h : r.FrameInv) :
    r.bitcnt.toNat ≤ 16 ∧
      (r.bitcnt = 0 ↔ r.phase = .idle ∨ r.phase = .settle ∨ r.phase = .initWait) := by
  unfold Regs.FrameInv at h
  split at h <;> rename_i hp <;> simp only [hp]
  · obtain ⟨-, hb, -⟩ := h; simp [hb]
  · simp [h]
  · obtain ⟨hlo, hhi, -⟩ := h
    have hne : r.bitcnt ≠ 0 := by bv_omega
    exact ⟨hhi, by simpa using hne⟩
  · obtain ⟨hlo, hhi, -⟩ := h
    have hne : r.bitcnt ≠ 0 := by bv_omega
    exact ⟨hhi, by simpa using hne⟩
  · obtain ⟨-, hb⟩ := h; simp [hb]
  · obtain ⟨-, hb, -⟩ := h; simp [hb]

/-- The registers in `IDLE` are those of reset. -/
theorem RegsInv.eq_reset {c : Cfg} {r : Regs} (h : RegsInv c r) (hp : r.phase = .idle) : r = Regs.reset := by
  obtain ⟨line, phase, timer, shreg, bitcnt, initseq⟩ := r
  obtain ⟨rfl, rfl, rfl, rfl, rfl⟩ := h.i1 hp
  cases hp
  rfl

end Sys2Proof.Machine

open Sys2Proof Sys2Proof.Machine

/-- Settles O36, by what the invariants say of each phase: every end of a delay enters a phase that they fit, and the
countdown stays within the delay. -/
theorem stepKeepsRegisterInvariants : Obligations.StepKeepsRegisterInvariants :=
  ⟨fun _ _ hs h => (stepped_of_step h).inv hs, fun _ _ _ hs h => inv_of_reaches (inv_of_regs_reset hs) h⟩

/-- Settles O38: the ranges are those of the phases. -/
theorem invariantsGiveRegisterRanges : Obligations.InvariantsGiveRegisterRanges := by
  intro s hs
  have h := (regsInv_iff s.cfg s.regs).mp hs
  obtain ⟨hle, hzero⟩ := h.frame.bitcnt
  exact ⟨h.timer_le.trans (delayUs_le _ _), h.timer_eq_zero_iff, hle, hzero, hs.eq_reset⟩
end

section
/-! The frames of the instructions and of the step: what a microsecond of any instruction leaves unchanged. -/

namespace Sys2Proof.Machine

/-- A tick of the sequencer is a microsecond. -/
theorem tick_passes (s : State) : ∃ ds ws, Passes s (tick s) ds ws := by
  by_cases hb : s.regs.phase = .idle
  · rw [tick_idle hb]
    exact ⟨[], [], rfl, rfl, by simp, rfl⟩
  by_cases ht : 1 < s.regs.timer
  · rw [tick_countdown hb ht]
    exact ⟨[], [], rfl, rfl, by simp, rfl⟩
  · obtain ⟨ws, henters, -⟩ := tick_enters hb ht
    exact ⟨_, ws, henters.toPasses⟩

/-- The presentation of a frame is a microsecond that touches neither the results nor the script (R134, R166). -/
theorem presentFrame_frame (f : Frame) (s : State) :
    (∃ ds ws, Passes s (presentFrame f s) ds ws) ∧ (presentFrame f s).results = s.results ∧
      (presentFrame f s).script = s.script := by
  by_cases hi : s.regs.phase = .idle
  · rw [presentFrame_idle hi]
    exact ⟨⟨_, _, (beginFrame_enters f s).toPasses⟩, rfl, rfl⟩
  · obtain ⟨-, hres, hscript, -⟩ := tick_frame s
    rw [presentFrame_busy hi]
    exact ⟨tick_passes s, hres, hscript⟩

/-- The presentation of `INIT` is a microsecond that touches neither the results nor the script (R164, R166). -/
theorem presentInit_frame (s : State) :
    (∃ ds ws, Passes s (presentInit s) ds ws) ∧ (presentInit s).results = s.results ∧
      (presentInit s).script = s.script := by
  by_cases hi : s.regs.phase = .idle
  · rw [presentInit_idle hi]
    exact ⟨⟨_, _, (beginInit_enters _ s s.script).toPasses⟩, rfl, rfl⟩
  · obtain ⟨-, hres, hscript, -⟩ := tick_frame s
    rw [presentInit_busy hi]
    exact ⟨tick_passes s, hres, hscript⟩

/-- What executing an instruction can do, by what it may change. -/
inductive Executed (s : State) : Instr → State → Prop where
  /-- `ENCODE` returns its frame to the caller and takes no time (R100, R104). -/
  | returned (o h l : Nat) :
    Executed s (.encode o h l) { s with results := s.results ++ [encodeFrame s.cfg.layout o h l] }
  /-- `BIND` with a level is a microsecond that leaves the host something to present (R194). -/
  | bound (level : Int) {t : State} (passes : ∃ ds ws, Passes s t ds ws) (results : t.results = s.results) :
    Executed s (.bind (some level)) t
  /-- Every other instruction is a microsecond that touches neither the results nor the script. -/
  | passed {i : Instr} {t : State} (hi : ∀ o h l, i ≠ .encode o h l) (passes : ∃ ds ws, Passes s t ds ws)
    (results : t.results = s.results) (script : t.script = s.script) : Executed s i t

/-- The inversion of `exec`: its result is one of these. -/
theorem executed_of_exec {i : Instr} {s t : State} (h : exec i s = .next t) : Executed s i t := by
  obtain ⟨-, hres, hscript, -⟩ := tick_frame s
  cases hf : sentFrame s.cfg i with
  | some f =>
    rw [exec_of_sentFrame hf] at h
    cases h
    obtain ⟨hpass, hres, hscript⟩ := presentFrame_frame f s
    exact .passed (by rintro o hi lo rfl; cases hf) hpass hres hscript
  | none =>
    cases i with
    | init =>
      cases h
      obtain ⟨hpass, hres, hscript⟩ := presentInit_frame s
      exact .passed nofun hpass hres hscript
    | reservedCmdKind3 => cases h; exact .passed nofun (tick_passes s) hres hscript
    | encode o hi lo => cases h; exact .returned o hi lo
    | bind level =>
      rw [exec, execBind] at h
      split at h <;> cases h
      · obtain ⟨⟨ds, ws, hpass⟩, hres, hscript⟩ := presentInit_frame { s with script := bindTail level ++ s.script }
        have hpass : Passes s _ ds ws := ⟨hpass.now, hpass.cfg, hpass.trace, hpass.line⟩
        cases level with
        | none => exact .passed nofun ⟨ds, ws, hpass⟩ hres hscript
        | some v => exact .bound v ⟨ds, ws, hpass⟩ hres
      · cases level with
        | none => exact .passed nofun (tick_passes s) hres hscript
        | some v => exact .bound v (tick_passes s) hres
    | _ => cases hf

/-- An instruction only adds to the results. -/
theorem Executed.results_prefix {i : Instr} {s t : State} (h : Executed s i t) : s.results <+: t.results := by
  cases h with
  | returned o h l => exact List.prefix_append _ _
  | bound _ _ results => rw [results]
  | passed _ _ results => rw [results]

/-- A step only adds to the results (R100). -/
theorem step_results_prefix {s t : State} (h : step s = .next t) : s.results <+: t.results := by
  cases hr : s.rstNow with
  | true =>
    rw [step_rst hr, hardwareReset_eq] at h
    cases h
    exact List.prefix_rfl
  | false =>
    cases hp : s.presented with
    | none =>
      obtain ⟨-, hres, -⟩ := tick_frame s.advanceScript
      rw [step_none hr hp] at h
      cases h
      rw [hres, State.advanceScript_results]
    | some i =>
      rw [step_some hr hp] at h
      exact (executed_of_exec h).results_prefix

/-- A microsecond only adds to the trace. -/
theorem Passes.trace_prefix {s t : State} {ds : List Nat} {ws : List Level} (h : Passes s t ds ws) :
    s.trace <+: t.trace := ⟨_, h.trace.symm⟩

/-- What a microsecond adds to the trace has the new tick. -/
theorem Passes.tick_of_mem_drop {s t : State} {ds : List Nat} {ws : List Level} (h : Passes s t ds ws)
    {e : TraceEntry} (he : e ∈ t.trace.drop s.trace.length) : e.tick = t.now := by
  rw [h.trace, List.drop_left] at he
  obtain ⟨ev, -, rfl⟩ := List.mem_map.mp he
  rfl

/-- A microsecond that changes the line ends with the write of the new level (R10). -/
theorem Passes.ends_with_write {s t : State} {ds : List Nat} {ws : List Level} (h : Passes s t ds ws)
    (hl : t.regs.line ≠ s.regs.line) : ∃ es, t.trace = s.trace ++ es ++ [⟨t.now, .w t.regs.line⟩] := by
  have hline := h.line
  rcases List.eq_nil_or_concat ws with rfl | ⟨ws, v, rfl⟩
  · exact absurd hline hl
  · obtain rfl : t.regs.line = v := by simpa using hline
    exact ⟨(ds.map Event.d ++ ws.map Event.w).map (TraceEntry.mk t.now), by rw [h.trace]; simp⟩

/-- A step is an `ENCODE` line, which leaves registers, configuration, time and trace, or a microsecond. -/
theorem step_passes_or_evaluates {s t : State} (h : step s = .next t) :
    (∃ ds ws, Passes s t ds ws) ∨ (t.regs = s.regs ∧ t.cfg = s.cfg ∧ t.now = s.now ∧ t.trace = s.trace) := by
  cases stepEffect_of_step h with
  | evaluated o hi lo hp now cfg regs trace => exact .inr ⟨regs, cfg, now, trace⟩
  | idled _ passes => exact .inl ⟨_, _, passes⟩
  | counted _ _ passes => exact .inl ⟨_, _, passes⟩
  | ended _ _ ws enters => exact .inl ⟨_, _, enters.toPasses⟩
  | taken ws enters => exact .inl ⟨_, _, enters.toPasses⟩

end Sys2Proof.Machine

open Sys2Proof Sys2Proof.Machine

/-- Settles O42, by what executing the instruction can do. -/
theorem instructionFrame : Obligations.InstructionFrame := by
  intro i s t h
  cases executed_of_exec h with
  | returned o hi lo =>
    exact ⟨rfl, List.prefix_rfl, fun hne => absurd rfl (hne o hi lo), fun _ _ _ _ => ⟨rfl, rfl, rfl⟩, fun _ => rfl⟩
  | bound level passes results =>
    obtain ⟨ds, ws, hpass⟩ := passes
    exact ⟨hpass.cfg, hpass.trace_prefix, fun _ => ⟨results, hpass.now⟩, nofun, fun hne => absurd rfl (hne level)⟩
  | passed hne passes results script =>
    obtain ⟨ds, ws, hpass⟩ := passes
    exact ⟨hpass.cfg, hpass.trace_prefix, fun _ => ⟨results, hpass.now⟩, fun o hi lo e => absurd e (hne o hi lo),
      fun _ => script⟩

/-- Settles O40: the results by the inversion of `exec`, the rest because a step is a microsecond or an `ENCODE`
line. -/
theorem stepFrame : Obligations.StepFrame := by
  intro s t h
  have hresults := step_results_prefix h
  rcases step_passes_or_evaluates h with ⟨ds, ws, hpass⟩ | ⟨-, hcfg, hnow, htrace⟩
  · exact ⟨hpass.cfg, hpass.trace_prefix, hresults, hpass.now ▸ Nat.le_succ _, hpass.now.le,
      fun _ => hpass.tick_of_mem_drop⟩
  · exact ⟨hcfg, htrace ▸ List.prefix_rfl, hresults, hnow.ge, hnow ▸ Nat.le_succ _, by simp [htrace]⟩

/-- Settles O41: a step that changes the line is a microsecond whose last write is the new level. -/
theorem lineChangesOnlyByWrites : Obligations.LineChangesOnlyByWrites := by
  intro s t h hl
  rcases step_passes_or_evaluates h with ⟨ds, ws, hpass⟩ | ⟨hregs, -⟩
  · obtain ⟨es, htrace⟩ := hpass.ends_with_write hl
    exact ⟨hpass.now, by simp [htrace], by simp [htrace]⟩
  · exact absurd (congrArg Regs.line hregs) hl
end

section
/-! The reset state (R34) and its two playlist frames, which differ because the encoder puts a triple together bit by
bit in both layouts (R103, R199). -/

namespace Sys2Proof.Machine

/-- The formulas of both layouts, before they are cut to a frame, are one number (R103). -/
theorem encodeFrame_eq (layout : Layout) (o h l : Nat) :
    encodeFrame layout o h l = BitVec.ofNat 16 (o <<< 12 ||| h <<< 8 ||| l) := by
  have hmask (n : Nat) : BitVec.ofNat 16 (n &&& 0xFFFF) = BitVec.ofNat 16 n := by
    apply BitVec.eq_of_toNat_eq
    have hand : n &&& 0xFFFF = n % 2 ^ 16 := Nat.and_two_pow_sub_one_eq_mod n 16
    simp [hand]
  cases layout with
  | nested => simp only [encodeFrame, hmask, Nat.shiftLeft_or_distrib, ← Nat.shiftLeft_add]
  | flatMasked => exact hmask _

/-- The frame of a triple bit by bit, whatever the layout (R103). -/
theorem tripleFrame_eq_tripleBits (c : Cfg) (t : Triple) : tripleFrame c t = tripleBits t := by
  rw [tripleFrame, encodeBytes, encodeFrame_eq]
  refine BitVec.eq_of_getLsbD_eq fun k hk => ?_
  rw [BitVec.getLsbD_ofNat, Nat.testBit_or, Nat.testBit_or, Nat.testBit_shiftLeft, Nat.testBit_shiftLeft,
    BitVec.testBit_toNat, BitVec.testBit_toNat, BitVec.testBit_toNat, tripleBits, BitVec.getLsbD_append,
    BitVec.getLsbD_append, BitVec.getLsbD_or, BitVec.getLsbD_extractLsb', BitVec.getLsbD_extractLsb',
    BitVec.getLsbD_extractLsb']
  obtain hl | hh := Nat.lt_or_ge k 8
  · have h8 : ¬ 8 ≤ k := Nat.not_le.mpr hl
    have h12 : ¬ 12 ≤ k := by omega
    simp [hk, hl, h8, h12]
  have h8 : ¬ k < 8 := Nat.not_lt.mpr hh
  obtain hm | hm := Nat.lt_or_ge k 12
  · have h12 : ¬ 12 ≤ k := Nat.not_le.mpr hm
    have hdh : k - 8 < 4 := by omega
    simp [hk, hh, h8, h12, hdh]
  · have hdh : ¬ k - 8 < 4 := by omega
    have hop : k - 12 < 4 := by omega
    have hidx : 4 + (k - 12) = k - 8 := by omega
    simp [hk, hh, hm, h8, hdh, hop, hidx, Nat.sub_sub]

end Sys2Proof.Machine

open Sys2Proof Sys2Proof.Machine

/-- Settles O35: nothing has happened yet, and the configuration's table has its playlist frames apart. -/
theorem resetMeetsTheInvariants : Obligations.ResetMeetsTheInvariants := by
  refine ⟨rfl, rfl, inv_of_regs_reset rfl, ⟨nofun, .nil, nofun, fun hb => absurd rfl hb, rfl⟩, ⟨rfl, rfl, rfl⟩, ?_⟩
  rw [CfgModesDiffer, tripleFrame_eq_tripleBits, tripleFrame_eq_tripleBits]
  exact withModesApart_modes Config.openCfg.optable
end

section
/-! A transmission in flight and the host: a busy block makes the sequencer's tick whatever the script holds, and the
script goes its own way (R60, R166). -/

namespace Sys2Proof.Machine

/-- The phase change does not look at the script. -/
theorem endPhase_withScript {s : State} (hb : s.regs.phase ≠ .idle) (script : List ScriptLine) :
    endPhase { s with script := script } = { endPhase s with script := script } := by
  rcases endPhase_cases s hb with ⟨hp, e⟩ | ⟨hp, e⟩ | ⟨hp, e⟩ | ⟨hp, e⟩ | ⟨hp, e⟩ <;> rw [e] <;>
    simp only [endPhase, hp]
  · rfl
  · rfl
  · by_cases hm : 1 < s.endDelay.regs.bitcnt
    · rw [endBitLo_more hm]; exact endBitLo_more hm
    · rw [endBitLo_last hm]; exact endBitLo_last hm
  · cases hi : s.endDelay.regs.initseq with
    | true => rw [endSettle_init hi]; exact endSettle_init hi
    | false => rw [endSettle_plain hi]; exact endSettle_plain hi
  · rfl

/-- The sequencer's tick does not look at the script. -/
theorem tick_withScript (s : State) (script : List ScriptLine) :
    tick { s with script := script } = { tick s with script := script } := by
  by_cases hb : s.regs.phase = .idle
  · rw [tick_idle hb]; exact tick_idle hb
  by_cases ht : 1 < s.regs.timer
  · rw [tick_countdown hb ht]; exact tick_countdown hb ht
  · rw [tick_endPhase hb ht, tick_endPhase (s := { s with script := script }) hb ht]
    exact endPhase_withScript (s := s.clock) hb script

/-- A step of a busy block on which `rst` is not sampled: the sequencer's tick, and the host moves on (R166). -/
theorem step_busy_eq {s : State} (hr : s.rstNow = false) (hb : s.regs.phase ≠ .idle) :
    step s = .next { tick s with script := s.scriptNext } := by
  rw [step_busy hr hb]
  exact congrArg _ (tick_withScript s s.scriptNext)

end Sys2Proof.Machine

open Sys2Proof Sys2Proof.Machine

/-- Settles O34: under both hosts the step is the sequencer's tick of the same registers, and each host's script stays
free of resets. -/
theorem busyBlockIgnoresTheHost : Obligations.BusyBlockIgnoresTheHost := by
  intro s script hb hs hscript
  exact ⟨_, _, step_busy_eq (noReset_rstNow hs) hb,
    step_busy_eq (s := { s with script := script }) (noReset_rstNow hscript) hb,
    by rw [tick_withScript], noReset_scriptNext hs, noReset_scriptNext (s := { s with script := script }) hscript⟩
end

section
/-! A transmission from the tick it is taken on to `IDLE`, by the sequencer alone: phase by phase it plays the events of
the event level (R120, R161). -/

namespace Sys2Proof.Machine

/-! ### Ticks of a busy block -/

/-- `n` ticks of a block that is busy all along lead from `s` to `t`. No host is in it, so that the script of a run that
makes these ticks is known where the host is (`reaches_countdown` leaves it open). -/
inductive Runs : Nat → State → State → Prop where
  | done (s : State) : Runs 0 s s
  | ticked {n : Nat} {s t : State} (hb : s.regs.phase ≠ .idle) (h : Runs n (tick s) t) : Runs (n + 1) s t

theorem Runs.trans {m n : Nat} {s t u : State} (h : Runs m s t) (h' : Runs n t u) : Runs (m + n) s u := by
  induction h with
  | done => rwa [Nat.zero_add]
  | ticked hb _ ih => rw [Nat.succ_add]; exact .ticked hb (ih h')

/-- The state with its timer at `timer`. -/
def State.withTimer (s : State) (timer : BitVec 16) : State := { s with regs := { s.regs with timer := timer } }

/-- A phase lasts what its timer counts; then comes the phase change (R135, R143). -/
theorem runs_timer {n : Nat} {s : State} (hb : s.regs.phase ≠ .idle) (hn : n < 50000) :
    Runs (n + 1) (s.withTimer (BitVec.ofNat 16 (n + 1)))
      (endPhase ({ s with now := s.now + (n + 1) }.withTimer 1)) := by
  induction n generalizing s with
  | zero => exact .ticked hb (tick_endPhase (s := s.withTimer 1) hb (by decide : ¬ 1 < 1#16) ▸ .done _)
  | succ n ih =>
    have hmore : 1 < BitVec.ofNat 16 (n + 1 + 1) := by bv_omega
    have hsub : BitVec.ofNat 16 (n + 1 + 1) - 1 = BitVec.ofNat 16 (n + 1) := by bv_omega
    have hcount : tick (s.withTimer (BitVec.ofNat 16 (n + 1 + 1))) = s.clock.withTimer (BitVec.ofNat 16 (n + 1)) :=
      (tick_countdown (s := s.withTimer (BitVec.ofNat 16 (n + 1 + 1))) hb hmore).trans (congrArg s.clock.withTimer hsub)
    have hrest := ih (s := s.clock) hb (by omega)
    rw [State.clock_now, Nat.add_right_comm, Nat.add_assoc] at hrest
    exact .ticked hb (hcount ▸ hrest)

/-- A phase from its first microsecond on. -/
theorem runs_delay {s : State} (hb : s.regs.phase ≠ .idle) :
    Runs (delayUs s.cfg s.regs) (s.withTimer (BitVec.ofNat 16 (delayUs s.cfg s.regs)))
      (endPhase ({ s with now := s.now + delayUs s.cfg s.regs }.withTimer 1)) := by
  have hpos := delayUs_pos s.cfg hb
  have hle := delayUs_le s.cfg s.regs
  have h := runs_timer (n := delayUs s.cfg s.regs - 1) hb (by omega)
  rwa [Nat.sub_add_cancel hpos] at h

/-! ### Events played -/

/-- The state in which the events `es` have happened since `s` and the registers are `r`. -/
def State.played (s : State) (es : List Event) (r : Regs) : State :=
  { s with regs := r, now := s.now + totalUs es, trace := s.trace ++ stamp s.now es }

theorem totalUs_append (es fs : List Event) : totalUs (es ++ fs) = totalUs es + totalUs fs := by
  induction es with
  | nil => exact (Nat.zero_add _).symm
  | cons e es ih => rw [List.cons_append, totalUs_cons, ih, totalUs_cons e es, Nat.add_assoc]

theorem stamp_append (t : Nat) (es fs : List Event) :
    stamp t (es ++ fs) = stamp t es ++ stamp (t + totalUs es) fs := by
  induction es generalizing t with
  | nil => rfl
  | cons e es ih => cases e <;> simp [stamp, totalUs, ih, Nat.add_assoc]

@[simp] theorem map_event_stamp (t : Nat) (es : List Event) : (stamp t es).map TraceEntry.event = es := by
  induction es generalizing t with
  | nil => rfl
  | cons e es ih => cases e <;> simp [stamp, ih]

theorem State.played_played (s : State) (es fs : List Event) (r r' : Regs) :
    (s.played es r).played fs r' = s.played (es ++ fs) r' := by
  simp [State.played, totalUs_append, stamp_append, Nat.add_assoc]

/-! ### The phases -/

variable {s : State} {es fs : List Event}

/-- A phase that begins when the events `es` have happened plays what its end appends to the trace. -/
theorem runs_phase {r r' : Regs} {us : Nat} (hus : delayUs s.cfg r = us) (hb : r.phase ≠ .idle)
    (ht : r.timer = BitVec.ofNat 16 us)
    (hend : endPhase ({ s.played es r with now := (s.played es r).now + us }.withTimer 1) =
      (s.played es r).played fs r') :
    Runs us (s.played es r) (s.played (es ++ fs) r') := by
  subst hus
  have hstart : (s.played es r).withTimer (BitVec.ofNat 16 (delayUs s.cfg r)) = s.played es r := by rw [← ht]; rfl
  have hrun := runs_delay (s := s.played es r) hb
  rw [← State.played_played, ← hend]
  exact hstart ▸ hrun

variable {f : Frame} {n : BitVec 5} {i : Bool}

/-- `START` (R121, R136). -/
theorem runs_start :
    Runs startLowUs (s.played es ⟨.low, .start, BitVec.ofNat 16 startLowUs, f, n, i⟩)
      (s.played (es ++ [.d startLowUs, .w .high]) ⟨.high, .bitHi, BitVec.ofNat 16 (hiUs (topBit f)), f, n, i⟩) :=
  runs_phase rfl nofun rfl (by simp [delayUs, endPhase, endStart_eq, State.played, stamp, totalUs, State.withTimer])

/-- `BIT_HI` (R123, R124, R137). -/
theorem runs_bitHi :
    Runs (hiUs (topBit f)) (s.played es ⟨.high, .bitHi, BitVec.ofNat 16 (hiUs (topBit f)), f, n, i⟩)
      (s.played (es ++ [.d (hiUs (topBit f)), .w .low])
        ⟨.low, .bitLo, BitVec.ofNat 16 (loUs (topBit f)), f, n, i⟩) :=
  runs_phase rfl nofun rfl (by simp [delayUs, endPhase, endBitHi_eq, State.played, stamp, totalUs, State.withTimer])

/-- `BIT_LO` with more bits to send (R138). -/
theorem runs_bitLo_more (hn : 1 < n) :
    Runs (loUs (topBit f)) (s.played es ⟨.low, .bitLo, BitVec.ofNat 16 (loUs (topBit f)), f, n, i⟩)
      (s.played (es ++ [.d (loUs (topBit f)), .w .high])
        ⟨.high, .bitHi, BitVec.ofNat 16 (hiUs (topBit (f <<< 1))), f <<< 1, n - 1, i⟩) :=
  runs_phase rfl nofun rfl
    ((endBitLo_more hn).trans (by simp [delayUs, State.played, stamp, totalUs, State.withTimer]))

/-- `BIT_LO` of the last bit (R139). -/
theorem runs_bitLo_last (hn : ¬ 1 < n) :
    Runs (loUs (topBit f)) (s.played es ⟨.low, .bitLo, BitVec.ofNat 16 (loUs (topBit f)), f, n, i⟩)
      (s.played (es ++ [.d (loUs (topBit f)), .w .high])
        ⟨.high, .settle, BitVec.ofNat 16 s.cfg.settleUs, f <<< 1, 0, i⟩) :=
  runs_phase rfl nofun rfl
    ((endBitLo_last hn).trans (by simp [delayUs, State.played, stamp, totalUs, State.withTimer]))

/-- `SETTLE` of a plain transmission (R140). -/
theorem runs_settle_plain :
    Runs s.cfg.settleUs (s.played es ⟨.high, .settle, BitVec.ofNat 16 s.cfg.settleUs, 0, 0, false⟩)
      (s.played (es ++ [.d s.cfg.settleUs]) Regs.reset) :=
  runs_phase rfl nofun rfl
    ((endSettle_plain rfl).trans (by simp [delayUs, State.played, stamp, totalUs, State.withTimer, Regs.reset]))

/-- `SETTLE` of the Reset frame of an `INIT` (R164). -/
theorem runs_settle_init :
    Runs s.cfg.settleUs (s.played es ⟨.high, .settle, BitVec.ofNat 16 s.cfg.settleUs, 0, 0, true⟩)
      (s.played (es ++ [.d s.cfg.settleUs]) ⟨.high, .initWait, BitVec.ofNat 16 s.cfg.initSettleUs, 0, 0, true⟩) :=
  runs_phase rfl nofun rfl
    ((endSettle_init rfl).trans (by simp [delayUs, State.played, stamp, totalUs, State.withTimer]))

/-- `INIT_WAIT` (R164). -/
theorem runs_initWait :
    Runs s.cfg.initSettleUs (s.played es ⟨.high, .initWait, BitVec.ofNat 16 s.cfg.initSettleUs, 0, 0, true⟩)
      (s.played (es ++ [.d s.cfg.initSettleUs]) Regs.reset) :=
  runs_phase rfl nofun rfl
    ((endInitWait_eq _).trans (by simp [delayUs, State.played, stamp, totalUs, State.withTimer, Regs.reset]))

/-! ### Whole transmissions -/

/-- The events of a symbol are its two writes and its two delays (R123, R124). -/
theorem symbolEvents_delays (b : Bool) :
    symbolEvents b = [.w .high, .d (hiUs b), .w .low, .d (loUs b)] := symbolEvents_eq b

theorem totalUs_symbolEvents (b : Bool) : totalUs (symbolEvents b) = hiUs b + loUs b := by
  rw [symbolEvents_delays]
  rfl

/-- The bit loop, from the write of its first symbol to the idle restore after its last (R122 to R126). -/
theorem runs_bitLoop {m : Nat} (hm : m < 16) :
    Runs (totalUs (bitLoop (m + 1) f))
      (s.played (es ++ [.w .high])
        ⟨.high, .bitHi, BitVec.ofNat 16 (hiUs (topBit f)), f, BitVec.ofNat 5 (m + 1), i⟩)
      (s.played (es ++ bitLoop (m + 1) f ++ [.w .high])
        ⟨.high, .settle, BitVec.ofNat 16 s.cfg.settleUs, f <<< (m + 1), 0, i⟩) := by
  induction m generalizing es f with
  | zero =>
    have hlast : ¬ 1 < BitVec.ofNat 5 (0 + 1) := by decide
    have hrun := (runs_bitHi (s := s) (es := es ++ [.w .high]) (i := i)).trans (runs_bitLo_last (f := f) hlast)
    simpa [bitLoop, symbolEvents_delays, totalUs] using hrun
  | succ m ih =>
    have hmore : 1 < BitVec.ofNat 5 (m + 1 + 1) := by bv_omega
    have hsub : BitVec.ofNat 5 (m + 1 + 1) - 1 = BitVec.ofNat 5 (m + 1) := by bv_omega
    have hslot := (runs_bitHi (s := s) (es := es ++ [.w .high]) (i := i)).trans (runs_bitLo_more (f := f) hmore)
    have hrest := ih (es := es ++ symbolEvents (topBit f)) (f := f <<< 1) (by omega)
    have hshift : f <<< 1 <<< (m + 1) = f <<< (m + 1 + 1) := by
      rw [← BitVec.shiftLeft_add, Nat.add_comm 1]
    rw [bitLoop, totalUs_append, totalUs_symbolEvents, ← hshift]
    rw [hsub] at hslot
    refine hslot.trans ?_
    simpa [symbolEvents_delays] using hrest

/-- A transmission up to its settle delay (R121 to R126). -/
theorem runs_frame :
    Runs (startLowUs + totalUs (bitLoop 16 f))
      (s.played (es ++ [.w .low]) ⟨.low, .start, BitVec.ofNat 16 startLowUs, f, 16, i⟩)
      (s.played (es ++ ([.w .low, .d startLowUs] ++ bitLoop 16 f ++ [.w .high]))
        ⟨.high, .settle, BitVec.ofNat 16 s.cfg.settleUs, 0, 0, i⟩) := by
  have hzero : f <<< 16 = 0 := BitVec.shiftLeft_eq_zero le_rfl
  have hstart := runs_start (s := s) (es := es ++ [.w .low]) (f := f) (n := 16) (i := i)
  have hloop := runs_bitLoop (s := s) (es := es ++ [.w .low, .d startLowUs]) (f := f) (i := i) (m := 15) (by decide)
  rw [hzero] at hloop
  simp only [List.append_assoc, List.cons_append, List.nil_append] at hstart hloop ⊢
  exact hstart.trans hloop

/-- A plain transmission from the tick it is taken on (R120, R129). -/
theorem runs_xmit (s : State) (f : Frame) :
    Runs (totalUs (xmitEvents s.cfg f)) (beginFrame f false s) (s.played (xmitEvents s.cfg f) Regs.reset) := by
  have hrun := (runs_frame (s := s) (es := []) (f := f)).trans runs_settle_plain
  have hbegin : beginFrame f false s =
      s.played ([] ++ [.w .low]) ⟨.low, .start, BitVec.ofNat 16 startLowUs, f, 16, false⟩ := rfl
  rw [hbegin]
  simpa [xmitEvents, totalUs_append, totalUs, Nat.add_assoc] using hrun

/-- An `INIT` from the tick it is taken on (R161, R162). -/
theorem runs_init (s : State) :
    Runs (totalUs (initEvents s.cfg)) (beginFrame (resetFrame s.cfg) true (s.writeLine .high))
      (s.played (initEvents s.cfg) Regs.reset) := by
  have hrun := (runs_frame (s := s) (es := [.w .high]) (f := resetFrame s.cfg)).trans
    (runs_settle_init.trans runs_initWait)
  have hbegin : beginFrame (resetFrame s.cfg) true (s.writeLine .high) =
      s.played ([.w .high] ++ [.w .low])
        ⟨.low, .start, BitVec.ofNat 16 startLowUs, resetFrame s.cfg, 16, true⟩ := by
    simp [beginFrame, State.writeLine, State.record, State.played, stamp, totalUs]
  rw [hbegin]
  simpa [initEvents, xmitEvents, totalUs_append, totalUs, Nat.add_assoc] using hrun

end Sys2Proof.Machine
end

section
/-! A program: each line is held while the block is busy and taken when it is ready, so its commands run one after the
other to their ends (R84, R85, R264). -/

namespace Sys2Proof.Machine

/-- A program line is held while the block is busy, so the step is the sequencer's own (R166, R264). -/
theorem step_busy_program {s : State} {program : List Instr} (hs : s.script = program.map .line)
    (hb : s.regs.phase ≠ .idle) : step s = .next (tick s) := by
  obtain ⟨hr, hnext⟩ : s.rstNow = false ∧ s.scriptNext = s.script := by
    cases program with
    | nil =>
      obtain ⟨hr, -, hnext⟩ := ports_nil hs
      exact ⟨hr, hnext.trans hs.symm⟩
    | cons i rest => exact ⟨rstNow_line hs, (presented_line_busy hs hb).2⟩
  rw [step_busy_eq hr hb, hnext, ← tick_script s]

/-- A busy block under a program makes the ticks of its transmission. -/
theorem Runs.reaches {n : Nat} {s t : State} (h : Runs n s t) {program : List Instr}
    (hs : s.script = program.map .line) : Reaches n s t := by
  induction h with
  | done s => exact reaches_zero s
  | ticked hb _ ih => exact reaches_succ (step_busy_program hs hb) (ih ((tick_script _).trans hs))

/-- A program line is taken when the block is ready (R264). -/
theorem step_idle_line {s : State} {i : Instr} {rest : List Instr} (hs : s.script = (i :: rest).map .line)
    (hi : s.regs.phase = .idle) : step s = exec i (s.loadProgram rest) := by
  obtain ⟨hp, hnext⟩ := presented_line_idle hs hi
  rw [step_some (rstNow_line hs) hp, State.advanceScript, hnext]
  rfl

/-! ### What a program does -/

/-- What an instruction returns to its caller: only `ENCODE` returns something (R100). -/
def instrResult (c : Cfg) : Instr → Option Frame
  | .encode o h l => some (encodeFrame c.layout o h l)
  | _ => none

/-- The ticks of an instruction: one for the acceptance of each of its commands, and its delays (R85, R145). -/
def instrUs (c : Cfg) (i : Instr) : Nat := (expand c i).length + totalUs (instrEvents c i)

/-- The machine runs `program` from `s` to its end `t`, where the registers are those of reset and the program `rest`
is what the host still has to present. -/
structure RunsProgram (program rest : List Instr) (s t : State) : Prop where
  run : ∃ n, Reaches n s t
  regs : t.regs = Regs.reset
  script : t.script = rest.map .line
  cfg : t.cfg = s.cfg
  events : t.lineEvents = s.lineEvents ++ program.flatMap (instrEvents s.cfg)
  now : t.now = s.now + (program.map (instrUs s.cfg)).sum
  results : t.results = s.results ++ program.filterMap (instrResult s.cfg)

theorem RunsProgram.append {p q rest rest' : List Instr} {s t u : State} (h : RunsProgram p rest s t)
    (h' : RunsProgram q rest' t u) : RunsProgram (p ++ q) rest' s u where
  run := by
    obtain ⟨m, hm⟩ := h.run
    obtain ⟨n, hn⟩ := h'.run
    exact ⟨m + n, reaches_add hm hn⟩
  regs := h'.regs
  script := h'.script
  cfg := h'.cfg.trans h.cfg
  events := by simp [h'.events, h.events, h.cfg]
  now := by simp [h'.now, h.now, h.cfg, Nat.add_assoc]
  results := by simp [h'.results, h.results, h.cfg]

/-- A command that is taken on this tick and plays its events to their end. -/
theorem runsProgram_command {i : Instr} {rest : List Instr} {s v : State} {es : List Event}
    (hes : instrEvents s.cfg i = es) (hexpand : (expand s.cfg i).length = 1) (hret : instrResult s.cfg i = none)
    (hstep : step s = .next v) (hv : v.script = rest.map .line)
    (hrun : Runs (totalUs es) v ((s.loadProgram rest).clock.played es Regs.reset)) :
    RunsProgram [i] rest s ((s.loadProgram rest).clock.played es Regs.reset) where
  run := ⟨_, reaches_succ hstep (hrun.reaches hv)⟩
  regs := rfl
  script := rfl
  cfg := rfl
  events := by simp [hes, State.lineEvents, State.played, State.loadProgram]
  now := by simp [hes, instrUs, hexpand, State.played, State.loadProgram, Nat.add_assoc]
  results := by simp [hret, State.played, State.loadProgram]

/-- An instruction that sends one frame is one command, which plays the transmission of the frame (R85, R181). -/
theorem command_of_sentFrame {c : Cfg} {i : Instr} {f : Frame} (h : sentFrame c i = some f) :
    instrEvents c i = xmitEvents c f ∧ (expand c i).length = 1 ∧ instrResult c i = none := by
  cases i <;> cases h <;> exact ⟨rfl, rfl, rfl⟩

variable {s : State} {rest : List Instr}

/-- A line that sends one frame. -/
theorem runsProgram_sentFrame {i : Instr} {f : Frame} (hf : sentFrame s.cfg i = some f) (hi : s.regs.phase = .idle)
    (hscript : s.script = (i :: rest).map .line) : ∃ t, RunsProgram [i] rest s t := by
  obtain ⟨hes, hexpand, hret⟩ := command_of_sentFrame hf
  have hstep := step_idle_line hscript hi
  rw [exec_of_sentFrame (s := s.loadProgram rest) hf, presentFrame_idle (s := s.loadProgram rest) hi] at hstep
  exact ⟨_, runsProgram_command hes hexpand hret hstep rfl (runs_xmit (s.loadProgram rest).clock f)⟩

/-- A line that is an `INIT` on the port (R161, R164). -/
theorem runsProgram_presentInit {i : Instr} (hes : instrEvents s.cfg i = initEvents s.cfg)
    (hexpand : (expand s.cfg i).length = 1) (hret : instrResult s.cfg i = none) (hi : s.regs.phase = .idle)
    (hstep : step s = .next (presentInit (s.loadProgram rest))) : ∃ t, RunsProgram [i] rest s t := by
  rw [presentInit_idle (s := s.loadProgram rest) hi] at hstep
  exact ⟨_, runsProgram_command hes hexpand hret hstep rfl (runs_init (s.loadProgram rest).clock)⟩

/-- `BIND` with a level does what `INIT` and then `SETVOL` do (R194). -/
theorem RunsProgram.bind_level {level : Int} {t : State} (h : RunsProgram [.init, .setvol level] rest s t) :
    RunsProgram [.bind (some level)] rest s t where
  run := h.run
  regs := h.regs
  script := h.script
  cfg := h.cfg
  events := by simpa [instrEvents, sentFrame] using h.events
  now := by
    rw [h.now]
    simp only [instrUs, instrEvents, sentFrame, expand, totalUs_append, List.map_cons, List.map_nil, List.sum_cons,
      List.sum_nil, List.length_cons, List.length_nil]
    omega
  results := h.results

/-- One line of a program. -/
theorem runsProgram_line {i : Instr} (hs : s.regs = Regs.reset) (hscript : s.script = (i :: rest).map .line) :
    ∃ t, RunsProgram [i] rest s t := by
  have hi : s.regs.phase = .idle := by rw [hs]; rfl
  have hstep := step_idle_line hscript hi
  cases hf : sentFrame s.cfg i with
  | some f => exact runsProgram_sentFrame hf hi hscript
  | none =>
    cases i with
    | init => exact runsProgram_presentInit rfl rfl rfl hi hstep
    | reservedCmdKind3 =>
      rw [exec, execReservedCmdKind3, tick_idle (s := s.loadProgram rest) hi] at hstep
      have hdone : (s.loadProgram rest).clock.played [] Regs.reset = (s.loadProgram rest).clock := by
        simp [State.played, stamp, totalUs, ← hs, State.clock, State.loadProgram]
      exact ⟨_, runsProgram_command rfl rfl rfl hstep rfl (hdone.symm ▸ .done _)⟩
    | encode o h l =>
      exact ⟨_, ⟨1, reaches_succ hstep (reaches_zero _)⟩, hs, rfl, rfl,
        by simp [instrEvents, sentFrame, State.lineEvents, State.loadProgram],
        by simp [instrUs, expand, instrEvents, sentFrame, totalUs, State.loadProgram], rfl⟩
    | bind level =>
      rw [exec, execBind, if_pos (show (s.loadProgram rest).regs.phase = .idle from hi)] at hstep
      cases level with
      | none => exact runsProgram_presentInit rfl rfl rfl hi hstep
      | some v =>
        obtain ⟨u, hu⟩ := runsProgram_presentInit (i := .init) (rest := .setvol v :: rest) rfl rfl rfl hi hstep
        have hidle : u.regs.phase = .idle := by rw [hu.regs]; rfl
        obtain ⟨t, ht⟩ := runsProgram_sentFrame (i := .setvol v) rfl hidle hu.script
        exact ⟨t, (hu.append ht).bind_level⟩
    | _ => cases hf

/-- A whole program, line after line. -/
theorem runsProgram_of_script {program : List Instr} (hs : s.regs = Regs.reset)
    (hscript : s.script = program.map .line) : ∃ t, RunsProgram program [] s t := by
  induction program generalizing s with
  | nil => exact ⟨s, ⟨0, reaches_zero s⟩, hs, hscript, rfl, by simp, by simp, by simp⟩
  | cons i rest ih =>
    obtain ⟨u, hu⟩ := runsProgram_line hs hscript
    obtain ⟨t, ht⟩ := ih hu.regs hu.script
    exact ⟨t, hu.append ht⟩

end Sys2Proof.Machine

open Sys2Proof Sys2Proof.Machine

/-- Settles O55, by induction on the program: each line is taken when the block is ready, plays its events to their
end, and leaves the reset registers and the rest of the program. -/
theorem programRunsToItsEnd : Obligations.ProgramRunsToItsEnd := by
  intro program s hs
  obtain ⟨t, ⟨n, hrun⟩, hregs, hscript, hcfg, hevents, hnow, hresults⟩ :=
    runsProgram_of_script (s := s.loadProgram program) hs rfl
  exact ⟨n, t, hrun, hregs, hscript, hcfg, hevents, hnow, hresults⟩
end

section
/-! Command words (R76): the fields of a word, what each kind is read as, and the word sent for what was read. -/

namespace Sys2Proof

/-! ### Fields side by side -/

/-- A field is found in a longer word where the fields below it end. -/
theorem extractLsb'_append_above {m n : Nat} (x : BitVec m) (y : BitVec n) (start len : Nat) :
    (x ++ y).extractLsb' (start + n) len = x.extractLsb' start len := by
  rw [BitVec.extractLsb'_append_eq_of_le (Nat.le_add_left ..), Nat.add_sub_cancel]

/-- The second lowest byte of a word that ends in two bytes. -/
theorem extractLsb'_second_byte {n : Nat} (x : BitVec n) (b c : Byte) : (x ++ b ++ c).extractLsb' 8 8 = b :=
  (extractLsb'_append_above (x ++ b) c 0 8).trans BitVec.extractLsb'_append_eq_right

/-- What stands above the two low bytes of a word. -/
theorem extractLsb'_above_bytes {n : Nat} (x : BitVec n) (b c : Byte) : (x ++ b ++ c).extractLsb' 16 n = x :=
  (extractLsb'_append_above (x ++ b) c 8 n).trans BitVec.extractLsb'_append_eq_left

theorem cmdWord_kind (kind : BitVec 2) (a b c : Byte) : (cmdWord kind a b c).extractLsb' 24 2 = kind :=
  (extractLsb'_append_above (kind ++ a ++ b) c 16 2).trans (extractLsb'_above_bytes kind a b)

theorem cmdWord_a (kind : BitVec 2) (a b c : Byte) : (cmdWord kind a b c).extractLsb' 16 8 = a :=
  (extractLsb'_append_above (kind ++ a ++ b) c 8 8).trans (extractLsb'_second_byte kind a b)

theorem cmdWord_b (kind : BitVec 2) (a b c : Byte) : (cmdWord kind a b c).extractLsb' 8 8 = b :=
  extractLsb'_second_byte (kind ++ a) b c

theorem cmdWord_c (kind : BitVec 2) (a b c : Byte) : (cmdWord kind a b c).extractLsb' 0 8 = c :=
  BitVec.extractLsb'_append_eq_right

/-- The frame operand is the two low bytes. -/
theorem cmdWord_bc (kind : BitVec 2) (a b c : Byte) : (cmdWord kind a b c).extractLsb' 0 16 = b ++ c := by
  have hassoc : cmdWord kind a b c = (kind ++ a) ++ (b ++ c) := BitVec.append_assoc
  rw [hassoc]
  exact BitVec.extractLsb'_append_eq_right

/-- Every command word is made of its fields. -/
theorem exists_eq_cmdWord (w : CmdWord) : ∃ kind a b c, w = cmdWord kind a b c := by
  refine ⟨w.extractLsb' 24 2, w.extractLsb' 16 8, w.extractLsb' 8 8, w.extractLsb' 0 8, ?_⟩
  have hka : w.extractLsb' 24 2 ++ w.extractLsb' 16 8 = w.extractLsb' 16 10 :=
    BitVec.extractLsb'_append_extractLsb'_eq_extractLsb' rfl
  have hkab : w.extractLsb' 16 10 ++ w.extractLsb' 8 8 = w.extractLsb' 8 18 :=
    BitVec.extractLsb'_append_extractLsb'_eq_extractLsb' rfl
  have hw : w.extractLsb' 8 18 ++ w.extractLsb' 0 8 = w :=
    (BitVec.extractLsb'_append_extractLsb'_eq_extractLsb' rfl).trans BitVec.extractLsb'_eq_self
  rw [cmdWord, hka, hkab, hw]

/-- The two bytes of a frame are the frame. -/
theorem frame_bytes (f : Frame) : f.extractLsb' 8 8 ++ f.extractLsb' 0 8 = f :=
  (BitVec.extractLsb'_append_extractLsb'_eq_extractLsb' rfl).trans BitVec.extractLsb'_eq_self

/-! ### What each kind is read as -/

theorem decodeCmd26_kind0 (a b c : Byte) : decodeCmd26 (cmdWord 0 a b c) = .xmit (b ++ c) := by
  simp [decodeCmd26, cmdWord_kind, cmdWord_bc]

theorem decodeCmd26_kind1 (a b c : Byte) : decodeCmd26 (cmdWord 1 a b c) = .send a b c := by
  simp [decodeCmd26, cmdWord_kind, cmdWord_a, cmdWord_b, cmdWord_c]

theorem decodeCmd26_kind2 (a b c : Byte) : decodeCmd26 (cmdWord 2 a b c) = .init := by
  simp [decodeCmd26, cmdWord_kind]

theorem decodeCmd26_kind3 (a b c : Byte) : decodeCmd26 (cmdWord 3 a b c) = .reservedCmdKind3 := by
  simp [decodeCmd26, cmdWord_kind]

/-- The word sent for a port command is read as that command. -/
theorem decodeCmd26_of_encodeCmd26 {i : Instr} {w : CmdWord} (h : encodeCmd26 i = some w) : decodeCmd26 w = i := by
  cases i <;> cases h
  case xmit f => rw [decodeCmd26_kind0, frame_bytes]
  case send => exact decodeCmd26_kind1 ..
  case init => exact decodeCmd26_kind2 ..
  case reservedCmdKind3 => exact decodeCmd26_kind3 ..

/-! ### Clearing the ignored fields -/

/-- The word of a frame whose two bytes are given. -/
theorem encodeCmd26_xmit_bytes (b c : Byte) : encodeCmd26 (.xmit (b ++ c)) = some (cmdWord 0 0 b c) := by
  have hb : (b ++ c).extractLsb' 8 8 = b := BitVec.extractLsb'_append_eq_left
  have hc : (b ++ c).extractLsb' 0 8 = c := BitVec.extractLsb'_append_eq_right
  rw [encodeCmd26, hb, hc]

/-- A mask acts on each field of a word. -/
theorem cmdWord_and (k k' : BitVec 2) (a a' b b' c c' : Byte) :
    cmdWord k a b c &&& cmdWord k' a' b' c' = cmdWord (k &&& k') (a &&& a') (b &&& b') (c &&& c') := by
  refine BitVec.and_append.trans ?_
  rw [BitVec.and_append, BitVec.and_append]
  rfl

end Sys2Proof

open Sys2Proof Sys2Proof.Machine

/-- Settles O2, kind by kind. -/
theorem commandWordMeaning : Obligations.CommandWordMeaning := fun a b c =>
  ⟨decodeCmd26_kind0 a b c, decodeCmd26_kind1 a b c, decodeCmd26_kind2 a b c, decodeCmd26_kind3 a b c⟩

/-- Settles O4, kind by kind: the mask of a kind is all ones in the kind and in the fields it reads, and 0 in the fields
it ignores, which are sent as 0. -/
theorem decodeThenEncode : Obligations.DecodeThenEncode := by
  intro w
  obtain ⟨kind, a, b, c, rfl⟩ := exists_eq_cmdWord w
  have hframe : (0x300FFFF : CmdWord) = cmdWord 3 0 0xFF 0xFF := by decide
  have hall : (0x3FFFFFF : CmdWord) = cmdWord 3 0xFF 0xFF 0xFF := by decide
  have hkind : (0x3000000 : CmdWord) = cmdWord 3 0 0 0 := by decide
  have hbyte (x : Byte) : x &&& 255#8 = x := BitVec.and_allOnes
  rw [cmdWord_kind, hframe, hall, hkind]
  obtain rfl | rfl | rfl | rfl : kind = 0 ∨ kind = 1 ∨ kind = 2 ∨ kind = 3 := by revert kind; decide
  · rw [decodeCmd26_kind0, encodeCmd26_xmit_bytes]; simp [cmdWord_and, hbyte]
  · rw [decodeCmd26_kind1]; simp [encodeCmd26, cmdWord_and, hbyte]
  · rw [decodeCmd26_kind2]; simp [encodeCmd26, cmdWord_and]
  · rw [decodeCmd26_kind3]; simp [encodeCmd26, cmdWord_and]
end

section
/-! Table words (R76, R100, R86): the word the encoder gives an instruction, in each of the three formats, is read as
that instruction. -/

namespace Sys2Proof

/-! ### Reading a word by its width -/

theorem decodeTableWord_cmd26 (w : CmdWord) : decodeTableWord 32 w.toNat = some (decodeCmd26 w) := by
  simp [decodeTableWord, decode, w.isLt, Except.toOption]

theorem decodeTableWord_func24 (w : BitVec 24) : decodeTableWord 24 w.toNat = some (decodeFunc24 w) := by
  simp [decodeTableWord, decode, w.isLt, Except.toOption]

theorem decodeTableWord_f16 (f : Frame) : decodeTableWord 16 f.toNat = (decodeF16 f).toOption := by
  simp [decodeTableWord, decode, f.isLt]

/-! ### The instruction of a word made of its fields -/

/-- The triple of `ENCODE` (R100). -/
theorem decodeFunc24_bytes (o h l : Byte) : decodeFunc24 (o ++ h ++ l) = .encode o.toNat h.toNat l.toNat := by
  have hl : (o ++ h ++ l).extractLsb' 0 8 = l := BitVec.extractLsb'_append_eq_right
  rw [decodeFunc24, extractLsb'_above_bytes, extractLsb'_second_byte, hl]

/-- A frame of the row of `SETVOL` (R86). -/
theorem decodeF16_setvol (v : Byte) : decodeF16 ((0x40 : Byte) ++ v) = .ok (.setvol v.toNat) := by
  have hhigh : ((0x40 : Byte) ++ v).extractLsb' 8 8 = 0x40 := BitVec.extractLsb'_append_eq_left
  have hlow : ((0x40 : Byte) ++ v).extractLsb' 0 8 = v := BitVec.extractLsb'_append_eq_right
  have hplay : ((0x40 : Byte) ++ v : Frame) ≠ 0x6100 := fun h => by
    rw [h] at hhigh
    exact absurd hhigh (by decide)
  rw [decodeF16, if_neg hplay, if_pos hhigh, hlow]

/-- A frame of the row of `PLAYTRACK` (R86). -/
theorem decodeF16_playtrack (i : BitVec 12) : decodeF16 ((3 : BitVec 4) ++ i) = .ok (.playtrack i.toNat) := by
  have hopc : ((3 : BitVec 4) ++ i).extractLsb' 12 4 = 3 := BitVec.extractLsb'_append_eq_left
  have hlow : ((3 : BitVec 4) ++ i).extractLsb' 0 12 = i := BitVec.extractLsb'_append_eq_right
  have hplay : ((3 : BitVec 4) ++ i : Frame) ≠ 0x6100 := fun h => by
    rw [h] at hopc
    exact absurd hopc (by decide)
  have hvol : ((3 : BitVec 4) ++ i : Frame).extractLsb' 8 8 ≠ 0x40 := fun h => by
    have hbit (f : Frame) : (f.extractLsb' 12 4).getLsbD 0 = (f.extractLsb' 8 8).getLsbD 4 := by simp
    have h12 := hbit ((3 : BitVec 4) ++ i)
    rw [hopc, h] at h12
    exact absurd h12 (by decide)
  rw [decodeF16, if_neg hplay, if_neg hvol, if_pos hopc, hlow]

/-! ### The word of an instruction, by its operands -/

/-- The value of two fields side by side. -/
theorem toNat_append_eq {m n : Nat} (x : BitVec m) (y : BitVec n) : (x ++ y).toNat = x.toNat * 2 ^ n + y.toNat := by
  rw [BitVec.toNat_append, ← Nat.shiftLeft_add_eq_or_of_lt y.isLt, Nat.shiftLeft_eq]

/-- A number in the range of a field is the value of one. -/
theorem exists_toNat_eq {w : Nat} {n : Int} (h0 : 0 ≤ n) (hn : n < 2 ^ w) : ∃ x : BitVec w, n = x.toNat := by
  lift n to Nat using h0
  exact ⟨.ofNatLT n (by exact_mod_cast hn), rfl⟩

theorem encode_encode_bytes (o h l : Byte) :
    encode (.encode o.toNat h.toNat l.toNat) = some ⟨24, (o ++ h ++ l).toNat⟩ := by
  have hwf : (Instr.encode o.toNat h.toNat l.toNat).wellFormed := by
    simp [Instr.wellFormed, isByte, o.isLt, h.isLt, l.isLt]
  have hval : o.toNat * 65536 + h.toNat * 256 + l.toNat = (o ++ h ++ l).toNat := by
    rw [toNat_append_eq, toNat_append_eq]
    omega
  rw [encode, if_pos hwf, encodeFunc24, hval]

theorem encode_setvol (v : Byte) : encode (.setvol v.toNat) = some ⟨16, ((0x40 : Byte) ++ v).toNat⟩ := by
  have hv : (0 : Int) ≤ v.toNat ∧ (v.toNat : Int) < 256 := by omega
  rw [encode, if_pos hv, toNat_append_eq]
  rfl

theorem encode_playtrack (i : BitVec 12) :
    encode (.playtrack i.toNat) = some ⟨16, ((3 : BitVec 4) ++ i).toNat⟩ := by
  have hi : (0 : Int) ≤ i.toNat ∧ (i.toNat : Int) < 4096 := by omega
  rw [encode, if_pos hi, toNat_append_eq]
  rfl

/-- Only byte operands are well-formed (R100). -/
theorem exists_bytes_of_wellFormed {o h l : Nat} (hwf : WellFormed (.encode o h l)) :
    ∃ o' h' l' : Byte, o = o'.toNat ∧ h = h'.toNat ∧ l = l'.toNat := by
  simp only [WellFormed, Instr.wellFormed, isByte, Bool.and_eq_true, decide_eq_true_eq] at hwf
  obtain ⟨⟨ho, hh⟩, hl⟩ := hwf
  exact ⟨.ofNatLT o ho, .ofNatLT h hh, .ofNatLT l hl, rfl, rfl, rfl⟩

/-! ### Decoding what was encoded -/

/-- A command word is read as the command it was sent for. -/
theorem decodeTableWord_of_encodeCmd26 {i : Instr} {w : TableWord}
    (h : (encodeCmd26 i).map (fun v => (⟨32, v.toNat⟩ : TableWord)) = some w) :
    decodeTableWord w.nbits w.bits = some i := by
  obtain ⟨v, hv, rfl⟩ := Option.map_eq_some_iff.mp h
  rw [decodeTableWord_cmd26, decodeCmd26_of_encodeCmd26 hv]

/-- The word of an instruction is read as that instruction. -/
theorem decodeTableWord_of_encode {i : Instr} {w : TableWord} (h : encode i = some w) :
    decodeTableWord w.nbits w.bits = some i := by
  cases i with
  | xmit | send | init | reservedCmdKind3 => exact decodeTableWord_of_encodeCmd26 h
  | encode o hi lo =>
    by_cases hwf : WellFormed (.encode o hi lo)
    · obtain ⟨o, hi, lo, rfl, rfl, rfl⟩ := exists_bytes_of_wellFormed hwf
      cases (encode_encode_bytes o hi lo).symm.trans h
      rw [decodeTableWord_func24, decodeFunc24_bytes]
    · simp [encode, hwf] at h
  | play => cases h; exact decodeTableWord_f16 0x6100
  | setvol v =>
    by_cases hv : 0 ≤ v ∧ v < 256
    · obtain ⟨v, rfl⟩ := exists_toNat_eq (w := 8) hv.1 hv.2
      cases (encode_setvol v).symm.trans h
      rw [decodeTableWord_f16, decodeF16_setvol]; rfl
    · simp [encode, hv] at h
  | playtrack i =>
    by_cases hi : 0 ≤ i ∧ i < 4096
    · obtain ⟨i, rfl⟩ := exists_toNat_eq (w := 12) hi.1 hi.2
      cases (encode_playtrack i).symm.trans h
      rw [decodeTableWord_f16, decodeF16_playtrack]; rfl
    · simp [encode, hi] at h
  | _ => cases h

end Sys2Proof

open Sys2Proof Sys2Proof.Machine

/-- Settles O3: format by format, by the fields of the word the encoder makes of the operands. -/
theorem encodeThenDecode : Obligations.EncodeThenDecode := by
  refine ⟨fun i w => decodeTableWord_of_encode, fun _ => rfl, fun _ _ _ => rfl, rfl, rfl, rfl, ?_, ?_, ?_⟩
  · intro o h l hwf
    obtain ⟨o, h, l, rfl, rfl, rfl⟩ := exists_bytes_of_wellFormed hwf
    rw [encode_encode_bytes]; rfl
  · intro v h0 h1
    obtain ⟨v, rfl⟩ := exists_toNat_eq (w := 8) h0 h1
    rw [encode_setvol]; rfl
  · intro i h0 h1
    obtain ⟨i, rfl⟩ := exists_toNat_eq (w := 12) h0 h1
    rw [encode_playtrack]; rfl

/-- Settles O1, by reading the eleven words. -/
theorem wordsFromTheSpecDecode : Obligations.WordsFromTheSpecDecode := by
  unfold Obligations.WordsFromTheSpecDecode
  decide
end

section
/-! The two packing formulas (R72, R73). -/

open Sys2Proof Sys2Proof.Machine

/-- Settles O6: the mask of the nested formula is the residue modulo 65536, and both layouts have one formula before
they are cut to a frame. -/
theorem layoutsGiveTheSameFrame : Obligations.LayoutsGiveTheSameFrame := by
  intro cmd dataH dataL
  refine ⟨?_, by rw [encodeFrame_eq, encodeFrame_eq]⟩
  exact congrArg (BitVec.ofNat 16) (Nat.and_two_pow_sub_one_eq_mod _ 16)
end

section
/-! Pseudo-instructions (R85, R181): the one command of an expansion sends the same frame. -/

namespace Sys2Proof.Machine

/-- An instruction and the one command it expands to send the same frame, if any. -/
theorem sentFrame_of_expand {c : Cfg} {i j : Instr} (h : expand c i = [j]) : sentFrame c i = sentFrame c j := by
  cases i with
  | bind level => cases level <;> cases h; rfl
  | _ => cases h <;> rfl

/-- `BIND` without a level is `INIT` (R194). -/
theorem exec_bind_none (s : State) : exec (.bind none) s = exec .init s := by
  by_cases hi : s.regs.phase = .idle
  · simp only [exec, execBind, execInit, bindTail, if_pos hi, List.nil_append]
  · simp only [exec, execBind, execInit, if_neg hi, presentInit_busy hi]

end Sys2Proof.Machine

open Sys2Proof Sys2Proof.Machine

/-- Settles O25: both present the same frame; the expansions that send no plain frame are the instruction itself or the
`INIT` of a `BIND`. -/
theorem pseudoInstructionIsItsExpansion : Obligations.PseudoInstructionIsItsExpansion := by
  intro i j s h
  cases hf : sentFrame s.cfg i with
  | some f => rw [exec_of_sentFrame hf, exec_of_sentFrame ((sentFrame_of_expand h).symm.trans hf)]
  | none =>
    cases i with
    | init | reservedCmdKind3 => cases h; rfl
    | encode => cases h
    | bind level => cases level <;> cases h; exact exec_bind_none s
    | _ => cases hf
end

section
/-! The reference demodulator (R87): it reads the bits of the slots and shifts them in, which gives the frame back. -/

namespace Sys2Proof.Machine

/-- One bit is shifted into the frame read so far (R87). -/
def shiftIn (acc : Frame) (b : Bool) : Frame := if b then (acc <<< 1) ||| 1 else acc <<< 1

/-- The slots of some bits are read as those bits. -/
theorem readSlots_slotSegments (bits : List Bool) (rest : List Segment) (acc : Frame) :
    readSlots bits.length (bits.flatMap slotSegments ++ rest) acc = some (bits.foldl shiftIn acc) := by
  induction bits generalizing acc with
  | nil => simp [readSlots]
  | cons b bits ih =>
    cases b <;> exact ih _

/-- The demodulator reads the sixteen bits of a transmission. -/
theorem demodulate_xmitSegments (c : Cfg) (bits : List Bool) (h : bits.length = 16) :
    demodulate (xmitSegments c bits) = some (bits.foldl shiftIn 0) := by
  have hread := readSlots_slotSegments bits [(.high, c.settleUs)] 0
  rwa [h] at hread

/-- The bit below some top bits of a frame, shifted in after them. -/
theorem shiftIn_ushiftRight (f : Frame) (k : Nat) : shiftIn (f >>> (k + 1)) (f.getLsbD k) = f >>> k := by
  refine BitVec.eq_of_getLsbD_eq fun i hi => ?_
  cases i with
  | zero => cases h : f.getLsbD k <;> simp [shiftIn, h]
  | succ i =>
    have hidx : k + 1 + i = k + (i + 1) := by omega
    cases h : f.getLsbD k <;> simp [shiftIn, hi, hidx]

theorem loopBits_succ (n : Nat) (f : Frame) : loopBits (n + 1) f = loopBits n f ++ [f.getLsbD (15 - n)] := by
  simp [loopBits, List.range_succ]

/-- The top bits of a frame, shifted in one after the other, are the frame without its other bits. -/
theorem foldl_shiftIn_loopBits (f : Frame) (n : Nat) (hn : n ≤ 16) :
    (loopBits n f).foldl shiftIn 0 = f >>> (16 - n) := by
  induction n with
  | zero => exact (BitVec.ushiftRight_eq_zero le_rfl).symm
  | succ n ih =>
    have hidx : 16 - n = 15 - n + 1 := by omega
    rw [loopBits_succ, List.foldl_append, ih (by omega), hidx, Nat.add_sub_add_right 15 1 n]
    exact shiftIn_ushiftRight f (15 - n)

end Sys2Proof.Machine

open Sys2Proof Sys2Proof.Machine

/-- Settles O48: the waveform is the slots of the sixteen bits from bit 15 down, and the demodulator shifts those in. -/
theorem demodulationRecoversTheFrame : Obligations.DemodulationRecoversTheFrame := by
  intro c f
  rw [waveform_xmitEvents, demodulate_xmitSegments c _ (by simp [loopBits]), foldl_shiftIn_loopBits f 16 le_rfl]
  simp
end

section
/-! The reserved command kind (R82, R141, R143). -/

namespace Sys2Proof.Machine

/-- In `IDLE` the reserved kind lets time pass and does nothing else. -/
theorem exec_reservedCmdKind3_idle {s : State} (h : s.regs.phase = .idle) :
    exec .reservedCmdKind3 s = .next s.clock := by
  rw [exec, execReservedCmdKind3, tick_idle h]

end Sys2Proof.Machine

open Sys2Proof Sys2Proof.Machine

/-- Settles O13: the word on the port is read as the reserved kind, whatever its operand bytes. -/
theorem reservedKindConsumed : Obligations.ReservedKindConsumed := by
  intro a b c s rest hi hs
  refine ⟨?_, exec_reservedCmdKind3_idle hi⟩
  have hp : s.presented = some .reservedCmdKind3 := by
    rw [presented_sample hs]
    exact congrArg some (decodeCmd26_kind3 a b c)
  rw [step_some (rstNow_sample hs) hp, exec_reservedCmdKind3_idle (s := s.advanceScript) hi, State.advanceScript,
    scriptNext_sample hs]
  rfl
end

section
/-! The Frame Encoder (spec 40): a frame's fields in terms of the operands (R103), the operands in terms of the fields
(R108), and operands wider than a byte (R106). -/

namespace Sys2Proof.Machine

/-! ### A byte and its nibbles -/

theorem setWidth_nibble_le (n : BitVec 4) : n.setWidth 8 ≤ (0x0F : Byte) := by
  rw [BitVec.le_def, BitVec.toNat_setWidth_of_le (by decide)]
  exact Nat.le_of_lt_succ n.isLt

theorem extractLsb'_setWidth_nibble (n : BitVec 4) : (n.setWidth 8).extractLsb' 0 4 = n :=
  (BitVec.extractLsb'_setWidth_of_le (by decide)).trans BitVec.extractLsb'_eq_self

theorem setWidth_lowNibble_of_le {b : Byte} (hb : b ≤ 0x0F) : (b.extractLsb' 0 4).setWidth 8 = b := by
  have hlt : b.toNat < 2 ^ 4 := Nat.lt_succ_of_le (BitVec.le_def.mp hb)
  apply BitVec.eq_of_toNat_eq
  rw [BitVec.toNat_setWidth_of_le (by decide), BitVec.extractLsb'_toNat, Nat.shiftRight_zero, Nat.mod_eq_of_lt hlt]

theorem highNibble_eq_zero_of_le {b : Byte} (hb : b ≤ 0x0F) : b.extractLsb' 4 4 = 0#4 := by
  have hlt : b.toNat < 2 ^ 4 := Nat.lt_succ_of_le (BitVec.le_def.mp hb)
  apply BitVec.eq_of_toNat_eq
  rw [BitVec.extractLsb'_toNat, Nat.shiftRight_eq_div_pow, Nat.div_eq_of_lt hlt]
  rfl

/-- The mask `0xF` changes no bit that the cut to four bits keeps. -/
theorem setWidth_and_mask (b : Byte) : (b &&& 0xF).setWidth 4 = b.setWidth 4 := by
  have hmask : (0xF : Byte).setWidth 4 = BitVec.allOnes 4 := rfl
  rw [BitVec.setWidth_and, hmask, BitVec.and_allOnes]

/-! ### The fields of an encoded frame -/

/-- The frame of three operands bit by bit, whatever the layout: they are a triple of some configuration (R103). -/
theorem encodeBytes_eq_append (layout : Layout) (o h l : Byte) :
    encodeBytes layout o h l = (o.extractLsb' 0 4 ||| h.extractLsb' 4 4) ++ h.extractLsb' 0 4 ++ l :=
  tripleFrame_eq_tripleBits { Config.cfg with layout := layout } ⟨o, h, l⟩

@[simp] theorem frameOpc_encodeBytes (layout : Layout) (o h l : Byte) :
    frameOpc (encodeBytes layout o h l) = o.extractLsb' 0 4 ||| h.extractLsb' 4 4 := by
  rw [encodeBytes_eq_append]
  exact (extractLsb'_append_above _ l 4 4).trans BitVec.extractLsb'_append_eq_left

@[simp] theorem frameDh_encodeBytes (layout : Layout) (o h l : Byte) :
    frameDh (encodeBytes layout o h l) = h.extractLsb' 0 4 := by
  rw [encodeBytes_eq_append]
  exact (extractLsb'_append_above _ l 0 4).trans BitVec.extractLsb'_append_eq_right

@[simp] theorem frameDl_encodeBytes (layout : Layout) (o h l : Byte) : frameDl (encodeBytes layout o h l) = l := by
  rw [encodeBytes_eq_append]
  exact BitVec.extractLsb'_append_eq_right

/-- A frame is its three fields side by side. -/
theorem frame_fields (f : Frame) : frameOpc f ++ frameDh f ++ frameDl f = f := by
  have hhigh : frameOpc f ++ frameDh f = f.extractLsb' 8 8 :=
    BitVec.extractLsb'_append_extractLsb'_eq_extractLsb' rfl
  rw [hhigh]
  exact frame_bytes f

/-! ### The round trip -/

/-- A four-bit field gives back a byte only if it is at most `0x0F`; and if `h` is, nothing of it is mixed into the
opcode. -/
theorem fields_eq_operands_iff (layout : Layout) (o h l : Byte) :
    ((frameOpc (encodeBytes layout o h l)).setWidth 8 = o ∧ (frameDh (encodeBytes layout o h l)).setWidth 8 = h ∧
      frameDl (encodeBytes layout o h l) = l) ↔ (o ≤ 0x0F ∧ h ≤ 0x0F) := by
  constructor
  · rintro ⟨ho, hh, -⟩
    exact ⟨ho ▸ setWidth_nibble_le _, hh ▸ setWidth_nibble_le _⟩
  · rintro ⟨ho, hh⟩
    simp [highNibble_eq_zero_of_le hh, setWidth_lowNibble_of_le ho, setWidth_lowNibble_of_le hh]

theorem encodeBytes_fields (layout : Layout) (f : Frame) :
    encodeBytes layout ((frameOpc f).setWidth 8) ((frameDh f).setWidth 8) (frameDl f) = f := by
  rw [encodeBytes_eq_append, extractLsb'_setWidth_nibble, extractLsb'_setWidth_nibble,
    highNibble_eq_zero_of_le (setWidth_nibble_le _), BitVec.or_zero, frame_fields]

end Sys2Proof.Machine

open Sys2Proof Sys2Proof.Machine

/-- Settles O5: the three lines are the three fields of an encoded frame. -/
theorem encoderBitByBit : Obligations.EncoderBitByBit := fun layout o h l =>
  ⟨frameOpc_encodeBytes layout o h l, frameDh_encodeBytes layout o h l, frameDl_encodeBytes layout o h l⟩

/-- Settles O7: both layouts OR the same shifted operands, and a frame keeps the low 16 bits. -/
theorem overWideOperands : Obligations.OverWideOperands := by
  intro layout o h l
  rw [encodeFrame_eq, BitVec.toNat_ofNat, Nat.shiftLeft_eq, Nat.shiftLeft_eq]

/-- Settles O8: the fields are the masked operands, and a byte is its low nibble exactly when it is at most `0x0F`. -/
theorem encoderRoundTrip : Obligations.EncoderRoundTrip := by
  refine fun layout => ⟨fun o h l => ⟨?_, ?_, ?_, fields_eq_operands_iff layout o h l⟩, encodeBytes_fields layout⟩
  · rw [frameOpc_encodeBytes, setWidth_and_mask, BitVec.setWidth_or, BitVec.setWidth_ushiftRight_eq_extractLsb,
      BitVec.setWidth_eq_extractLsb' (by decide)]
  · rw [frameDh_encodeBytes, setWidth_and_mask, BitVec.setWidth_eq_extractLsb' (by decide)]
  · exact frameDl_encodeBytes layout o h l

/-- Settles O9: the returned frame is the encoder's, whose value holds for operands of any width. -/
theorem encodeReturnsItsFrame : Obligations.EncodeReturnsItsFrame := fun o h l s =>
  ⟨encodeFrame s.cfg.layout o h l, overWideOperands s.cfg.layout o h l, rfl⟩
end

section
/-! The sequencer's phase changes as whole steps (R135 to R140, R164), with the durations written out. -/

namespace Sys2Proof.Machine

theorem hiUs_eq (b : Bool) : hiUs b = if b then 600 else 200 := rfl

theorem loUs_eq (b : Bool) : loUs b = if b then 200 else 600 := rfl

theorem settleUs_eq (c : Cfg) : c.settleUs = if c.settle = .us5000 then 5000 else 6000 := by
  unfold Cfg.settleUs
  cases c.settle <;> rfl

/-- A step that ends a delay, given what the phase change leaves (R143). -/
theorem step_endPhase {s : State} {r : Regs} {es : List Event} (hr : s.rstNow = false) (hb : s.regs.phase ≠ .idle)
    (ht : s.regs.timer = 1)
    (h : endPhase s.clock =
      { s with now := s.now + 1, regs := r, trace := s.trace ++ es.map fun e => ⟨s.now + 1, e⟩ }) :
    step s = .next (s.progressed r es) := by
  rw [step_busy_eq hr hb, tick_endPhase hb (by simp [ht]), h]
  rfl

/-- A step that ends the `BIT_LO` of a slot, given what the end of the slot leaves (R138, R139). -/
theorem step_endBitLo {s : State} {r : Regs} {v : Level} (hr : s.rstNow = false) (hp : s.regs.phase = .bitLo)
    (ht : s.regs.timer = 1)
    (h : endBitLo s.clock.endDelay =
      { s with now := s.now + 1, regs := r, trace := s.clock.endDelay.trace ++ [⟨s.now + 1, .w v⟩] }) :
    step s = .next (s.progressed r [.d (if s.regs.shreg.getLsbD 15 then 200 else 600), .w v]) := by
  refine step_endPhase hr (by simp [hp]) ht ?_
  rw [endPhase, State.clock_regs, hp]
  exact h.trans (by simp [delayUs, hp, loUs_eq, topBit])

/-- A step that ends `SETTLE`, given the registers the end of it leaves (R140, R164). -/
theorem step_endSettle {s : State} {r : Regs} (hr : s.rstNow = false) (hp : s.regs.phase = .settle)
    (ht : s.regs.timer = 1) (h : endSettle s.clock.endDelay = { s.clock.endDelay with regs := r }) :
    step s = .next (s.progressed r [.d (if s.cfg.settle = .us5000 then 5000 else 6000)]) := by
  refine step_endPhase hr (by simp [hp]) ht ?_
  rw [endPhase, State.clock_regs, hp]
  exact h.trans (by simp [delayUs, hp, settleUs_eq, State.endDelay, State.record, State.clock])

end Sys2Proof.Machine

open Sys2Proof Sys2Proof.Machine

/-- Settles O26: a busy block with its timer above 1 counts down, whatever is on the port. -/
theorem countdown : Obligations.Countdown := by
  intro s hr hb ht
  rw [step_busy_eq hr hb, tick_countdown hb (BitVec.lt_def.mpr ht)]
  simp [State.progressed, Machine.countdown, State.clock]

/-- Settles O27, by the end of `START`. -/
theorem endOfStart : Obligations.EndOfStart := by
  intro s hr hp ht
  refine step_endPhase hr (by simp [hp]) ht ?_
  simp [endPhase, hp, endStart_eq, delayUs, startLowUs, topBit, hiUs_eq, apply_ite (BitVec.ofNat 16)]

/-- Settles O28, by the end of `BIT_HI`. -/
theorem endOfBitHigh : Obligations.EndOfBitHigh := by
  intro s hr hp ht
  refine step_endPhase hr (by simp [hp]) ht ?_
  simp [endPhase, hp, endBitHi_eq, delayUs, topBit, hiUs_eq, loUs_eq, apply_ite (BitVec.ofNat 16)]

/-- Settles O29, by the end of `BIT_LO` with more bits to send. -/
theorem endOfBitLowMoreBits : Obligations.EndOfBitLowMoreBits := by
  intro s hr hp ht hm
  refine step_endBitLo hr hp ht ((endBitLo_more (s := s.clock.endDelay) (BitVec.lt_def.mpr hm)).trans ?_)
  simp [topBit, hiUs_eq, apply_ite (BitVec.ofNat 16)]

/-- Settles O30, by the end of `BIT_LO` of the last bit; in a state that meets the invariants fifteen bits of the
working copy are already 0, and the shift brings in the sixteenth. -/
theorem endOfBitLowLastBit : Obligations.EndOfBitLowLastBit := by
  intro s hr hp ht hb
  refine ⟨?_, fun hs => ?_⟩
  · refine step_endBitLo hr hp ht ((endBitLo_last (s := s.clock.endDelay) (by simp [hb])).trans ?_)
    simp [settleUs_eq, apply_ite (BitVec.ofNat 16)]
  · have hlow : LowZero 15 s.regs.shreg := by simpa [LowZero, hb] using hs.i7 (.inr hp)
    exact hlow.shift.eq_zero

/-- Settles O31, by the two ends of `SETTLE` and the end of `INIT_WAIT`. -/
theorem endOfSettle : Obligations.EndOfSettle := by
  intro s hr ht
  refine ⟨fun hp hi => ?_, fun hp hi => ?_, fun hp => ?_⟩
  · exact step_endSettle hr hp ht (endSettle_plain hi)
  · exact step_endSettle hr hp ht (endSettle_init hi)
  · refine step_endPhase hr (by simp [hp]) ht ?_
    simp [endPhase, hp, endInitWait_eq, delayUs, Cfg.initSettleUs]
end

section
/-! What the host presents, in `IDLE` and while the block is busy (R82, R134, R141, R143, R166, R264). -/

namespace Sys2Proof.Machine

/-- While the block is busy every instruction but `ENCODE` leaves the tick to the sequencer (R166). -/
theorem exec_busy {i : Instr} {s : State} (hb : s.regs.phase ≠ .idle) (hi : ∀ o h l, i ≠ .encode o h l) :
    exec i s = .next (tick s) := by
  cases hf : sentFrame s.cfg i with
  | some f => rw [exec_of_sentFrame hf, presentFrame_busy hb]
  | none =>
    cases i with
    | init => rw [exec, execInit, presentInit_busy hb]
    | reservedCmdKind3 => rfl
    | encode o h l => exact absurd rfl (hi o h l)
    | bind level => rw [exec, execBind, if_neg hb]
    | _ => cases hf

/-- `XMIT` is taken in `IDLE` and begins its transmission (R134). -/
theorem exec_xmit_idle {s : State} (hi : s.regs.phase = .idle) (f : Frame) :
    exec (.xmit f) s = .next (beginFrame f false s.clock) := congrArg _ (presentFrame_idle hi f)

/-- A valid command word on the port without `rst` is decoded and executed (R143). -/
theorem step_sample {s : State} {p : PortSample} {rest : List ScriptLine} (hs : s.script = .sample p :: rest)
    (hr : p.rst = false) (hv : p.cmdValid = true) : step s = exec (decodeCmd26 p.word) { s with script := rest } := by
  rw [step_some ((rstNow_sample hs).trans hr) ((presented_sample hs).trans (if_pos hv)), State.advanceScript,
    scriptNext_sample hs]

/-- A program line is executed in `IDLE` (R264). -/
theorem step_line_idle {s : State} {i : Instr} {rest : List ScriptLine} (hs : s.script = .line i :: rest)
    (hi : s.regs.phase = .idle) : step s = exec i { s with script := rest } := by
  obtain ⟨hp, hnext⟩ := presented_line_idle hs hi
  rw [step_some (rstNow_line hs) hp, State.advanceScript, hnext]

/-- A program line is held while the block is busy (R166, R264). -/
theorem step_line_busy {s : State} {i : Instr} {rest : List ScriptLine} (hs : s.script = .line i :: rest)
    (hb : s.regs.phase ≠ .idle) : step s = .next (tick s) := by
  rw [step_busy_eq (rstNow_line hs) hb, (presented_line_busy hs hb).2, ← tick_script s]

/-- A word of a command format is read as its command. -/
theorem decodeTableWord_command {nbits w : Nat} {i : Instr} (hn : nbits = 26 ∨ nbits = 32)
    (h : decodeTableWord nbits w = some i) : decodeCmd26 (BitVec.ofNat 26 w) = i := by
  rw [decodeTableWord, decode, if_pos hn] at h
  split at h
  · exact Option.some.inj h
  · cases h

/-- The fields of a command word, put on the port, are that word again (R76). -/
theorem word_of_fields (w : CmdWord) :
    PortSample.word ⟨false, true, w.extractLsb' 24 2, w.extractLsb' 16 8, w.extractLsb' 8 8, w.extractLsb' 0 8⟩ =
      w := by
  obtain ⟨kind, a, b, c, rfl⟩ := exists_eq_cmdWord w
  rw [PortSample.word, cmdWord_kind, cmdWord_a, cmdWord_b, cmdWord_c]

/-- A table word put in front of the script is executed by the next step in `IDLE` (log 7, 13). -/
theorem step_withFetchWord {s : State} {nbits w : Nat} {i : Instr} (h : decodeTableWord nbits w = some i)
    (hi : s.regs.phase = .idle) : step (s.withFetchWord nbits w) = exec i s := by
  unfold State.withFetchWord fetchLine
  rw [h]
  by_cases hn : nbits = 26 ∨ nbits = 32
  · simp only [if_pos hn]
    rw [step_sample rfl rfl rfl, word_of_fields, decodeTableWord_command hn h]
  · simp only [if_neg hn]
    exact step_line_idle rfl hi

end Sys2Proof.Machine

open Sys2Proof Sys2Proof.Machine

/-- Settles O14: both are the sequencer's tick, which leaves the script alone. -/
theorem commandsIgnoredWhileBusy : Obligations.CommandsIgnoredWhileBusy := fun _ _ s hb hi hj =>
  ⟨(exec_busy hb hi).trans (exec_busy hb hj).symm, exec_busy hb hi, tick_script s⟩

/-- Settles O10: the word on the port is read as the `XMIT` of its two low bytes. -/
theorem xmitAccepted : Obligations.XmitAccepted := by
  intro a b c s rest hi hs
  rw [step_sample hs rfl rfl, PortSample.word, decodeCmd26_kind0, exec_xmit_idle hi, exec_xmit_idle (by exact hi)]
  exact ⟨rfl, rfl⟩

/-- Settles O15, clause by clause: a sample, a program line in `IDLE`, a program line while busy, a table word. -/
theorem stepRunsThePresentedInstruction : Obligations.StepRunsThePresentedInstruction :=
  ⟨fun _ _ _ => step_sample, fun _ _ _ => step_line_idle, fun _ _ _ => step_line_busy,
    fun _ _ _ _ => step_withFetchWord⟩

/-- Settles O32: in `IDLE` neither nothing nor the reserved kind moves anything but time, and an empty script stays
empty. -/
theorem idleStays : Obligations.IdleStays := by
  refine ⟨fun s hr hi hp => ?_, fun n => ?_⟩
  · have hstep : step s = .next s.advanceScript.clock := by
      rcases hp with hp | hp
      · rw [step_none hr hp, tick_idle (by exact hi)]
      · rw [step_some hr hp, exec_reservedCmdKind3_idle (by exact hi)]
    rw [hstep]
    simp [State.progressed, State.clock, State.advanceScript]
  · induction n with
    | zero => exact fun s _ _ => reaches_zero s
    | succ n ih =>
      intro s hi hs
      obtain ⟨hr, hp, hnext⟩ := ports_nil hs
      have hstep : step s = .next s.clock := by
        rw [step_none hr hp, tick_idle (by exact hi), State.advanceScript, hnext, ← hs]
      have hrest := ih s.clock hi hs
      rw [State.clock_now, Nat.add_right_comm, Nat.add_assoc] at hrest
      exact reaches_succ hstep hrest
end

section
/-! The events of a transmission counted and timed (R128, R129). -/

namespace Sys2Proof.Machine

theorem length_bitLoop (n : Nat) (f : Frame) : (bitLoop n f).length = 4 * n := by
  induction n generalizing f with
  | zero => rfl
  | succ n ih =>
    rw [bitLoop, symbolEvents_delays, List.length_append, ih]
    simp only [List.length_cons, List.length_nil]
    omega

/-- Each iteration of the bit loop writes each level once. -/
theorem count_write_bitLoop (v : Level) (n : Nat) (f : Frame) : (bitLoop n f).count (.w v) = n := by
  induction n generalizing f with
  | zero => rfl
  | succ n ih =>
    have hsymbol : (symbolEvents (topBit f)).count (.w v) = 1 := by
      rw [symbolEvents_delays]
      cases v <;> simp
    rw [bitLoop, List.count_append, ih, hsymbol, Nat.add_comm]

theorem hiUs_add_loUs (b : Bool) : hiUs b + loUs b = 800 := by cases b <;> rfl

theorem totalUs_bitLoop (n : Nat) (f : Frame) : totalUs (bitLoop n f) = 800 * n := by
  induction n generalizing f with
  | zero => rfl
  | succ n ih => rw [bitLoop, totalUs_append, totalUs_symbolEvents, hiUs_add_loUs, ih, Nat.mul_succ, Nat.add_comm]

/-- The duration of a transmission (R129). -/
theorem totalUs_xmitEvents (c : Cfg) (f : Frame) : totalUs (xmitEvents c f) = 17800 + c.settleUs := by
  simp [xmitEvents, totalUs_append, totalUs_bitLoop, totalUs, startLowUs, ← Nat.add_assoc]

/-! ### The time at each level within the slots -/

/-- The time a list of segments is at a level. -/
def levelUs (v : Level) (segs : List Segment) : Nat := ((segs.filter fun g => g.1 = v).map Prod.snd).sum

theorem levelUs_append (v : Level) (segs segs' : List Segment) :
    levelUs v (segs ++ segs') = levelUs v segs + levelUs v segs' := by
  simp [levelUs]

/-- A slot is high 200 microseconds and 400 more for a 1 (R74). -/
theorem levelUs_high_slots (bits : List Bool) :
    levelUs .high (bits.flatMap slotSegments) = 200 * bits.length + 400 * bits.countP id := by
  induction bits with
  | nil => rfl
  | cons b bits ih =>
    have hslot : levelUs .high (slotSegments b) = 200 + if b then 400 else 0 := by cases b <;> rfl
    rw [List.flatMap_cons, levelUs_append, ih, hslot, List.length_cons, List.countP_cons]
    cases b <;> simp <;> omega

/-- A slot is low 600 microseconds and 400 less for a 1 (R74). -/
theorem levelUs_low_slots (bits : List Bool) :
    levelUs .low (bits.flatMap slotSegments) + 400 * bits.countP id = 600 * bits.length := by
  induction bits with
  | nil => rfl
  | cons b bits ih =>
    have hslot : levelUs .low (slotSegments b) = 600 - if b then 400 else 0 := by cases b <;> rfl
    rw [List.flatMap_cons, levelUs_append, hslot, List.length_cons, List.countP_cons]
    cases b <;> simp <;> omega

/-- The bits the loop reads are those of the frame in the other order, so as many of them are 1. -/
theorem countP_loopBits (f : Frame) : (loopBits 16 f).countP id = (List.range 16).countP fun k => f.getLsbD k := by
  have hrev : loopBits 16 f = (List.range 16).reverse.map fun k => f.getLsbD k := by
    have hrange : (List.range 16).reverse = (List.range 16).map fun k => 15 - k := by decide
    rw [hrange, List.map_map]
    rfl
  rw [hrev, List.countP_map, List.countP_reverse]
  rfl

theorem length_loopBits (n : Nat) (f : Frame) : (loopBits n f).length = n := by simp [loopBits]

end Sys2Proof.Machine

open Sys2Proof Sys2Proof.Machine

/-- Settles O43: the bit loop is the symbols of the frame's bits from bit 15 down, and each has two writes and two
delays. -/
theorem transmissionTraceClosedForm : Obligations.TransmissionTraceClosedForm := by
  intro c f
  refine ⟨?_, ?_, ?_, ?_, hiUs_add_loUs⟩
  · simp only [xmitEvents, bitLoop_eq 16 f le_rfl, loopBits, List.flatMap_map, symbolEvents_delays]
    rfl
  · simp [xmitEvents, length_bitLoop]
  · simp [xmitEvents, count_write_bitLoop]
  · simp [xmitEvents, count_write_bitLoop]

/-- Settles O44: the duration from the bit loop's, the time at each level from the slots of the waveform. -/
theorem transmissionDuration : Obligations.TransmissionDuration := by
  intro c f
  have htotal := totalUs_xmitEvents c f
  refine ⟨htotal, ?_, ?_, ?_⟩
  · rw [htotal, settleUs_eq]
    split
    · exact .inl rfl
    · exact .inr rfl
  · have hhigh := levelUs_high_slots (loopBits 16 f)
    rw [length_loopBits, countP_loopBits] at hhigh
    have hinit : levelUs .high (waveform .high (xmitEvents c f)).dropLast =
        levelUs .high ((loopBits 16 f).flatMap slotSegments) := by
      rw [waveform_xmitEvents, xmitSegments, ← List.cons_append, List.dropLast_concat]
      simp [levelUs]
    exact hinit.trans hhigh
  · have hlow := levelUs_low_slots (loopBits 16 f)
    rw [length_loopBits, countP_loopBits] at hlow
    have htail : levelUs .low (waveform .high (xmitEvents c f)).tail =
        levelUs .low ((loopBits 16 f).flatMap slotSegments) := by
      rw [waveform_xmitEvents, xmitSegments, List.tail_cons]
      simp [levelUs]
    exact htail.trans (Nat.eq_sub_of_add_eq hlow)
end

section
/-! A transmission under any host that drives no hardware reset (R60, R166), and the timetable of its phases (R144). -/

namespace Sys2Proof.Machine

/-- A host that drives no hardware reset lets a busy block make its ticks; only the script is the host's own. -/
theorem Runs.reaches_of_noReset {n : Nat} {s t : State} (h : Runs n s t) {script : List ScriptLine}
    (hn : NoReset script) :
    ∃ script', NoReset script' ∧ Reaches n { s with script := script } { t with script := script' } := by
  induction h generalizing script with
  | done s => exact ⟨script, hn, reaches_zero _⟩
  | @ticked n s t hb _ ih =>
    have hstep := step_busy_eq (s := { s with script := script }) (noReset_rstNow hn) hb
    rw [tick_withScript] at hstep
    obtain ⟨script', hn', hrest⟩ := ih (noReset_scriptNext (s := { s with script := script }) hn)
    exact ⟨script', hn', reaches_succ hstep hrest⟩

/-! ### The timetable -/

/-- The registers `j` microseconds into slot `k` of the transmission of `f` (R144). -/
def slotRegs (f : Frame) (k j : Nat) : Regs :=
  if j < hiUs (f.getLsbD (15 - k)) then
    ⟨.high, .bitHi, BitVec.ofNat 16 (hiUs (f.getLsbD (15 - k)) - j), f <<< k, BitVec.ofNat 5 (16 - k), false⟩
  else ⟨.low, .bitLo, BitVec.ofNat 16 (800 - j), f <<< k, BitVec.ofNat 5 (16 - k), false⟩

/-- The registers `m` microseconds after a transmission of `f` was taken (R144). -/
def timetable (c : Cfg) (f : Frame) (m : Nat) : Regs :=
  if m < 5000 then ⟨.low, .start, BitVec.ofNat 16 (5000 - m), f, 16, false⟩
  else if m < 17800 then slotRegs f ((m - 5000) / 800) ((m - 5000) % 800)
  else if m < 17800 + c.settleUs then ⟨.high, .settle, BitVec.ofNat 16 (17800 + c.settleUs - m), 0, 0, false⟩
  else Regs.reset

theorem timetable_start (c : Cfg) (f : Frame) {m : Nat} (hm : m < 5000) :
    timetable c f m = ⟨.low, .start, BitVec.ofNat 16 (5000 - m), f, 16, false⟩ := if_pos hm

theorem timetable_slot (c : Cfg) (f : Frame) {k j : Nat} (hk : k < 16) (hj : j < 800) :
    timetable c f (5000 + 800 * k + j) = slotRegs f k j := by
  have hdiv : (5000 + 800 * k + j - 5000) / 800 = k := by omega
  have hmod : (5000 + 800 * k + j - 5000) % 800 = j := by omega
  rw [timetable, if_neg (by omega), if_pos (by omega), hdiv, hmod]

theorem timetable_settle (c : Cfg) (f : Frame) {j : Nat} (hj : j < c.settleUs) :
    timetable c f (17800 + j) = ⟨.high, .settle, BitVec.ofNat 16 (c.settleUs - j), 0, 0, false⟩ := by
  rw [timetable, if_neg (by omega), if_neg (by omega), if_pos (by omega), Nat.add_sub_add_left]

theorem timetable_end (c : Cfg) (f : Frame) : timetable c f (17800 + c.settleUs) = Regs.reset := by
  rw [timetable, if_neg (by omega), if_neg (by omega), if_neg (lt_irrefl _)]

/-- The high phase of a slot is over before the slot is. -/
theorem hiUs_lt (b : Bool) : hiUs b < 800 := by cases b <;> decide

/-- The microseconds of a transmission: those of the start condition, of the slots, of the settle delay, and its
end. -/
theorem microsecond_cases (c : Cfg) {m : Nat} (hm : m ≤ 17800 + c.settleUs) :
    m < 5000 ∨ (∃ k j, k < 16 ∧ j < 800 ∧ m = 5000 + 800 * k + j) ∨ (∃ j, j < c.settleUs ∧ m = 17800 + j) ∨
      m = 17800 + c.settleUs := by
  by_cases h0 : m < 5000
  · exact .inl h0
  by_cases h1 : m < 17800
  · exact .inr (.inl ⟨(m - 5000) / 800, (m - 5000) % 800, by omega, by omega, by omega⟩)
  by_cases h2 : m < 17800 + c.settleUs
  · exact .inr (.inr (.inl ⟨m - 17800, by omega, by omega⟩))
  · exact .inr (.inr (.inr (by omega)))

theorem slotRegs_busy (f : Frame) (k j : Nat) : (slotRegs f k j).busy = true := by
  unfold slotRegs
  split <;> rfl

/-- The block is busy until the transmission ends, and no longer. -/
theorem timetable_busy (c : Cfg) (f : Frame) {m : Nat} (hm : m ≤ 17800 + c.settleUs) :
    (timetable c f m).busy = decide (m < 17800 + c.settleUs) := by
  rcases microsecond_cases c hm with h | ⟨k, j, hk, hj, rfl⟩ | ⟨j, hj, rfl⟩ | rfl
  · rw [timetable_start c f h, decide_eq_true (by omega)]
    rfl
  · rw [timetable_slot c f hk hj, slotRegs_busy, decide_eq_true (by omega)]
  · rw [timetable_settle c f hj, decide_eq_true (by omega)]
    rfl
  · rw [timetable_end, decide_eq_false (lt_irrefl _)]
    rfl

/-! ### The run keeps to the timetable -/

/-- `j` microseconds into a phase that a busy block comes to, only the timer of its registers has moved (R135). -/
theorem Runs.reaches_within {n j us : Nat} {s t : State} (h : Runs n s t) (hn : NoReset s.script)
    (hb : t.regs.phase ≠ .idle) (ht : t.regs.timer = BitVec.ofNat 16 us) (hus : us ≤ 50000) (hj : j < us) :
    ∃ u, Reaches (n + j) s u ∧ u.regs = { t.regs with timer := BitVec.ofNat 16 (us - j) } := by
  obtain ⟨script, hn', hrun⟩ := h.reaches_of_noReset hn
  have hlt : j < t.regs.timer.toNat := by rw [ht, toNat_timer hus]; exact hj
  obtain ⟨script', -, hcount⟩ := reaches_countdown j { t with script := script } hb hn' hlt
  have hsub : t.regs.timer - BitVec.ofNat 16 j = BitVec.ofNat 16 (us - j) := by
    rw [ht, BitVec.ofNat_sub_ofNat_of_le _ _ (by omega) hj.le]
  exact ⟨_, reaches_add hrun hcount, by simp only [hsub]⟩

variable {s : State} {f : Frame}

/-- The top bit of the working copy in slot `k` is bit `15 - k` of the frame (R122, R125). -/
theorem topBit_shiftLeft (f : Frame) {k : Nat} (hk : k < 16) : topBit (f <<< k) = f.getLsbD (15 - k) := by
  have hlow : ¬ 15 < k := by omega
  rw [topBit, BitVec.getLsbD_shiftLeft, decide_eq_false hlow]
  rfl

theorem beginFrame_eq_played (s : State) (f : Frame) :
    beginFrame f false s = s.played [.w .low] ⟨.low, .start, BitVec.ofNat 16 startLowUs, f, 16, false⟩ := rfl

/-- A transmission from the tick it is taken on to its slot `k` (R136, R138). -/
theorem runs_to_slot {k : Nat} (hk : k < 16) :
    ∃ es, Runs (5000 + 800 * k) (beginFrame f false s)
      (s.played es
        ⟨.high, .bitHi, BitVec.ofNat 16 (hiUs (topBit (f <<< k))), f <<< k, BitVec.ofNat 5 (16 - k), false⟩) := by
  induction k with
  | zero =>
    rw [BitVec.shiftLeft_zero, beginFrame_eq_played]
    exact ⟨_, runs_start⟩
  | succ k ih =>
    obtain ⟨es, hrun⟩ := ih (by omega)
    have hmore : 1 < BitVec.ofNat 5 (16 - k) := by bv_omega
    have hsub : BitVec.ofNat 5 (16 - k) - 1 = BitVec.ofNat 5 (16 - (k + 1)) := by bv_omega
    have hslot := hrun.trans (runs_bitHi.trans (runs_bitLo_more hmore))
    rw [hiUs_add_loUs, hsub, ← BitVec.shiftLeft_add, Nat.add_assoc, ← Nat.mul_succ] at hslot
    exact ⟨_, hslot⟩

/-- A transmission, from the tick it is taken on, comes to its end with the events of the event level on the trace,
whatever the host does short of a hardware reset (R129, R146). -/
theorem reaches_xmit_end (f : Frame) (hn : NoReset s.script) :
    ∃ script, Reaches (17800 + s.cfg.settleUs) (beginFrame f false s)
      { s.played (xmitEvents s.cfg f) Regs.reset with script := script } := by
  have hrun := runs_xmit s f
  rw [totalUs_xmitEvents] at hrun
  obtain ⟨script, -, hrun⟩ := hrun.reaches_of_noReset hn
  exact ⟨script, hrun⟩

/-- At every microsecond of a transmission, from the tick it is taken on, the registers are those of the timetable,
whatever the host does short of a hardware reset (R144). -/
theorem reaches_timetable (f : Frame) (hn : NoReset s.script) {m : Nat} (hm : m ≤ 17800 + s.cfg.settleUs) :
    ∃ u, Reaches m (beginFrame f false s) u ∧ u.regs = timetable s.cfg f m := by
  rcases microsecond_cases s.cfg hm with h | ⟨k, j, hk, hj, rfl⟩ | ⟨j, hj, rfl⟩ | rfl
  · obtain ⟨u, hu, hregs⟩ := (Runs.done (beginFrame f false s)).reaches_within hn nofun rfl (by decide) h
    rw [Nat.zero_add] at hu
    exact ⟨u, hu, hregs.trans (timetable_start s.cfg f h).symm⟩
  · obtain ⟨es, hrun⟩ := runs_to_slot (s := s) (f := f) hk
    rw [timetable_slot s.cfg f hk hj, slotRegs, ← topBit_shiftLeft f hk]
    split
    next hhi => exact hrun.reaches_within hn nofun rfl (hiUs_le _) hhi
    next hlo =>
      have hsum := hiUs_add_loUs (topBit (f <<< k))
      obtain ⟨u, hu, hregs⟩ := (hrun.trans runs_bitHi).reaches_within (j := j - hiUs (topBit (f <<< k))) hn nofun rfl
        (loUs_le _) (by omega)
      have htime : 5000 + 800 * k + hiUs (topBit (f <<< k)) + (j - hiUs (topBit (f <<< k))) = 5000 + 800 * k + j := by
        omega
      have hleft : loUs (topBit (f <<< k)) - (j - hiUs (topBit (f <<< k))) = 800 - j := by omega
      rw [htime] at hu
      rw [hleft] at hregs
      exact ⟨u, hu, hregs⟩
  · have hrun := runs_frame (s := s) (es := []) (f := f) (i := false)
    rw [totalUs_bitLoop] at hrun
    rw [timetable_settle s.cfg f hj]
    exact hrun.reaches_within hn nofun rfl (settleUs_le _) hj
  · obtain ⟨script, hrun⟩ := reaches_xmit_end f hn
    exact ⟨_, hrun, (timetable_end s.cfg f).symm⟩

/-- The block is busy all through a transmission. -/
theorem busy_of_reaches {u : State} (hn : NoReset s.script) {m : Nat} (hm : m < 17800 + s.cfg.settleUs)
    (h : Reaches m (beginFrame f false s) u) : u.regs.busy = true := by
  obtain ⟨v, hv, hregs⟩ := reaches_timetable f hn hm.le
  rw [reaches_unique h hv, hregs, timetable_busy _ _ hm.le, decide_eq_true hm]

theorem idle_of_regs_reset (hs : s.regs = Regs.reset) : s.regs.phase = .idle := by
  rw [hs]
  rfl

end Sys2Proof.Machine

open Sys2Proof Sys2Proof.Machine

/-- Settles O49: the run keeps to the timetable, whose clauses are its four parts. -/
theorem phaseTimetable : Obligations.PhaseTimetable := by
  intro f s hs hn
  refine ⟨_, exec_xmit_idle (idle_of_regs_reset hs) f, fun m hm => ?_⟩
  obtain ⟨u, hu, hregs⟩ := reaches_timetable (s := s.clock) f hn hm
  rw [State.clock_cfg] at hregs
  refine ⟨u, hu, fun h => ?_, fun k j hk hmj => ⟨fun hj => ?_, fun hj hj' => ?_⟩, fun h h' => ?_, fun h => ?_, ?_⟩
  · rw [hregs, timetable_start _ _ h]
  · have hj' := hj.trans (hiUs_lt _)
    rw [hregs, hmj, timetable_slot _ _ hk hj', slotRegs, if_pos hj]
  · rw [hregs, hmj, timetable_slot _ _ hk hj', slotRegs, if_neg hj.not_gt]
  · obtain ⟨j, rfl⟩ := Nat.exists_eq_add_of_le h
    rw [hregs, timetable_settle _ _ (by omega), Nat.add_sub_add_left]
  · rw [hregs, h, timetable_end]
  · rw [State.outputs, hregs, timetable_busy _ _ hm]

/-- Settles O50: every such instruction presents its frame, whose transmission plays the events of the event level. -/
theorem oneFrameRunRefinesEventLevel : Obligations.OneFrameRunRefinesEventLevel := by
  intro i f s hs hn hf
  obtain ⟨script, hrun⟩ := reaches_xmit_end (s := s.clock) f hn
  refine ⟨_, script, (exec_of_sentFrame hf).trans (exec_xmit_idle (idle_of_regs_reset hs) f), ?_⟩
  simpa [State.played, totalUs_xmitEvents, State.clock, hs] using hrun

/-- Settles O54: the second line is held, so it heads the script when the first transmission ends, and until then the
block is busy. -/
theorem backToBackCommands : Obligations.BackToBackCommands := by
  intro f g s hs hscript
  have hidle := idle_of_regs_reset hs
  have hfirst : step s = .next (beginFrame f false (s.loadProgram [.xmit g]).clock) :=
    (step_idle_line (rest := [.xmit g]) hscript hidle).trans (exec_xmit_idle (s := s.loadProgram [.xmit g]) hidle f)
  have hrun := (runs_xmit (s.loadProgram [.xmit g]).clock f).reaches (program := [.xmit g]) rfl
  rw [totalUs_xmitEvents] at hrun
  have hlen : 17801 + s.cfg.settleUs = 17800 + s.cfg.settleUs + 1 := Nat.add_right_comm 17800 1 _
  refine ⟨_, _, hlen ▸ reaches_succ hfirst hrun, rfl, rfl, (step_idle_line (rest := []) rfl rfl).trans
    (exec_xmit_idle rfl g), rfl, ?_, fun m v hm hlt hv => ?_⟩
  · simp only [beginFrame_now, State.clock_now, State.loadProgram, State.played, totalUs_xmitEvents, State.clock_cfg]
    omega
  · obtain ⟨k, rfl⟩ := Nat.exists_eq_add_of_le' hm
    obtain ⟨u, hu, hrest⟩ := reaches_succ_inv hv
    cases hfirst.symm.trans hu
    have hn : NoReset (s.loadProgram [.xmit g]).script := by simp [NoReset, State.loadProgram]
    have hk : k < 17800 + (s.loadProgram [.xmit g]).cfg.settleUs := Nat.lt_of_add_lt_add_right (hlen ▸ hlt)
    exact congrArg not (busy_of_reaches (s := (s.loadProgram [.xmit g]).clock) hn hk hrest)
end

section
/-! The levels an observer sees in a transmission, and their run-length encoding (R144, R146). -/

namespace Sys2Proof.Machine

/-- The levels of one state more. -/
theorem levels_succ_last {n : Nat} {s u : State} (h : Reaches n s u) :
    levels (n + 1) s = levels n s ++ [u.regs.line] := by
  induction n generalizing s with
  | zero =>
    cases h
    simp only [levels]
    cases step u <;> rfl
  | succ n ih =>
    obtain ⟨v, hv, hrest⟩ := reaches_succ_inv h
    rw [levels_succ hv, ih hrest, levels_succ hv, List.cons_append]

/-- The levels of a run, from what each of its states shows. -/
theorem levels_eq_map {n : Nat} {s : State} {g : Nat → Level} (h : ∀ m < n, ∃ u, Reaches m s u ∧ u.regs.line = g m) :
    levels n s = (List.range n).map g := by
  induction n with
  | zero => rfl
  | succ n ih =>
    obtain ⟨u, hu, hline⟩ := h n n.lt_succ_self
    rw [levels_succ_last hu, ih fun m hm => h m (hm.trans n.lt_succ_self), hline, List.range_succ, List.map_append]
    rfl

/-- The levels of a list of segments, microsecond by microsecond. -/
def segmentLevels (segs : List Segment) : List Level := segs.flatMap fun g => List.replicate g.2 g.1

theorem segmentLevels_append (segs segs' : List Segment) :
    segmentLevels (segs ++ segs') = segmentLevels segs ++ segmentLevels segs' := List.flatMap_append

/-- Observing a level for some microseconds more, after a delay at that level, lengthens the delay. -/
theorem observe_replicate (l : Level) (m n : Nat) (segs : List Segment) :
    observe (List.replicate n l) (waveStep (l, segs) (.d m)) = waveStep (l, segs) (.d (m + n)) := by
  induction n generalizing m with
  | zero => rfl
  | succ n ih =>
    have hlevel : (l, (waveStep (l, segs) (.d m)).2) = waveStep (l, segs) (.d m) :=
      Prod.ext (waveStep_d_fst (l, segs) m).symm rfl
    rw [List.replicate_succ, observe_cons, hlevel, waveStep_d_d, ih, Nat.add_assoc, Nat.add_comm 1]

theorem observe_append (ls ls' : List Level) (x : Level × List Segment) :
    observe (ls ++ ls') x = observe ls' (observe ls x) := by
  simp [observe]

/-- An observer of segments makes of them what the events that write them out do. -/
theorem observe_segmentLevels {segs : List Segment} (h : ∀ g ∈ segs, 0 < g.2) (x : Level × List Segment) :
    observe (segmentLevels segs) x = (segs.flatMap segmentEvents).foldl waveStep x := by
  induction segs generalizing x with
  | nil => rfl
  | cons g segs ih =>
    obtain ⟨hg, hsegs⟩ := List.forall_mem_cons.mp h
    obtain ⟨n, hn⟩ := Nat.exists_eq_add_of_lt hg
    have hfirst : observe (List.replicate g.2 g.1) x = (segmentEvents g).foldl waveStep x := by
      rw [segmentEvents, hn, List.replicate_succ, observe_cons, observe_replicate]
      simp [Nat.add_comm]
    rw [segmentLevels, List.flatMap_cons, observe_append, hfirst, List.flatMap_cons, List.foldl_append]
    exact ih hsegs _

/-- The run-length encoding of the levels of segments is the waveform of their events (R146). -/
theorem runLength_segmentLevels {segs : List Segment} (h : ∀ g ∈ segs, 0 < g.2) (initial : Level) :
    runLength initial (segmentLevels segs) = waveform initial (segs.flatMap segmentEvents) := by
  rw [runLength_eq, observe_segmentLevels h, waveform]

theorem map_range_add {α : Type} (g : Nat → α) (m n : Nat) :
    (List.range (m + n)).map g = (List.range m).map g ++ (List.range n).map fun j => g (m + j) := by
  simp [List.range_add, Function.comp_def]

/-- Some microseconds at one level are a segment. -/
theorem map_range_eq_segment {g : Nat → Level} {n : Nat} {v : Level} (h : ∀ j < n, g j = v) :
    (List.range n).map g = segmentLevels [(v, n)] := by
  rw [segmentLevels, List.flatMap_singleton]
  exact List.eq_replicate_iff.mpr ⟨by simp, by simpa using h⟩

/-- The level on the wire `m` microseconds after a transmission of `f` was taken. -/
def timetableLevel (c : Cfg) (f : Frame) (m : Nat) : Level := (timetable c f m).line

/-- The levels of a slot are those of its two segments. -/
theorem slot_levels (c : Cfg) (f : Frame) {k : Nat} (hk : k < 16) :
    ((List.range 800).map fun j => timetableLevel c f (5000 + 800 * k + j)) =
      segmentLevels (slotSegments (f.getLsbD (15 - k))) := by
  have hsum := hiUs_add_loUs (f.getLsbD (15 - k))
  have hsplit := map_range_add (fun j => timetableLevel c f (5000 + 800 * k + j)) (hiUs (f.getLsbD (15 - k)))
    (loUs (f.getLsbD (15 - k)))
  rw [hsum] at hsplit
  rw [hsplit, slotSegments, ← List.singleton_append, segmentLevels_append]
  refine congrArg₂ _ (map_range_eq_segment fun j hj => ?_) (map_range_eq_segment fun j hj => ?_)
  · rw [timetableLevel, timetable_slot c f hk (by omega), slotRegs, if_pos hj]
  · rw [timetableLevel, timetable_slot c f hk (by omega), slotRegs, if_neg (by omega)]

/-- The levels up to slot `n` are those of the start condition and of the slots before it. -/
theorem slots_levels (c : Cfg) (f : Frame) {n : Nat} (hn : n ≤ 16) :
    (List.range (5000 + 800 * n)).map (timetableLevel c f) =
      segmentLevels ((.low, startLowUs) :: (loopBits n f).flatMap slotSegments) := by
  induction n with
  | zero =>
    refine map_range_eq_segment fun m hm => ?_
    rw [timetableLevel, timetable_start c f hm]
  | succ n ih =>
    rw [Nat.mul_succ, ← Nat.add_assoc, map_range_add, ih (by omega), slot_levels c f (by omega), loopBits_succ,
      List.flatMap_append, List.flatMap_singleton, ← segmentLevels_append, List.cons_append]

/-- The levels of a whole transmission are those of its segments (R132, R144). -/
theorem timetable_levels (c : Cfg) (f : Frame) :
    (List.range (17800 + c.settleUs)).map (timetableLevel c f) = segmentLevels (xmitSegments c (loopBits 16 f)) := by
  have hsettle : ((List.range c.settleUs).map fun j => timetableLevel c f (17800 + j)) =
      segmentLevels [(.high, c.settleUs)] := by
    refine map_range_eq_segment fun j hj => ?_
    rw [timetableLevel, timetable_settle c f hj]
  rw [map_range_add, hsettle, slots_levels c f le_rfl, ← segmentLevels_append, xmitSegments, List.cons_append]

end Sys2Proof.Machine

open Sys2Proof Sys2Proof.Machine

/-- Settles O52: the levels of the run are those of the timetable, which are the segments of the waveform. -/
theorem tickLevelRefinesEventLevel : Obligations.TickLevelRefinesEventLevel := by
  intro f s hs hn
  obtain ⟨script, hrun⟩ := reaches_xmit_end (s := s.clock) f hn
  refine ⟨_, _, exec_xmit_idle (idle_of_regs_reset hs) f, hrun, rfl, ?_, rfl⟩
  have hlevels : levels (17800 + s.cfg.settleUs) (beginFrame f false s.clock) =
      segmentLevels (xmitSegments s.cfg (loopBits 16 f)) := by
    rw [← timetable_levels]
    refine levels_eq_map fun m hm => ?_
    obtain ⟨u, hu, hregs⟩ := reaches_timetable (s := s.clock) f hn hm.le
    exact ⟨u, hu, congrArg Regs.line hregs⟩
  rw [hlevels, runLength_segmentLevels (xmitSegments_reduced _ _).1, ← xmitEvents_eq]
end

section
/-! `SEND` and `INIT` taken in `IDLE` (R103, R160, R164, R165). -/

namespace Sys2Proof.Machine

/-- `SEND` is the `XMIT` of the frame of its operands, busy or not (R103, R160). -/
theorem exec_send (o h l : Byte) (s : State) : exec (.send o h l) s = exec (.xmit (tripleBits ⟨o, h, l⟩)) s := by
  have hframe : sentFrame s.cfg (.send o h l) = some (tripleBits ⟨o, h, l⟩) :=
    congrArg some (tripleFrame_eq_tripleBits s.cfg ⟨o, h, l⟩)
  rw [exec_of_sentFrame hframe, exec_of_sentFrame (i := .xmit _) rfl]

/-- The Reset frame bit by bit, whatever the layout (R103, R161). -/
theorem resetFrame_eq (c : Cfg) : resetFrame c = tripleBits c.resetTriple := tripleFrame_eq_tripleBits c c.resetTriple

/-- `INIT` is taken in `IDLE`: W(1), then the Reset frame begins on the same tick (R164, R165). -/
theorem exec_init_idle {s : State} (hi : s.regs.phase = .idle) :
    exec .init s = .next (beginFrame (resetFrame s.cfg) true (s.clock.writeLine .high)) :=
  congrArg _ (presentInit_idle hi)

theorem beginFrame_plain_eq_accepted (s : State) (f : Frame) :
    beginFrame f false s.clock = s.accepted f false [.low] := rfl

theorem beginFrame_init_eq_accepted (s : State) (f : Frame) :
    beginFrame f true (s.clock.writeLine .high) = s.accepted f true [.high, .low] := by
  simp [beginFrame, State.accepted, State.writeLine, State.record, State.clock, startLowUs]

end Sys2Proof.Machine

open Sys2Proof Sys2Proof.Machine

/-- Settles O11: both present the frame of the operands, which is the same in both layouts. -/
theorem sendAccepted : Obligations.SendAccepted := fun o h l s =>
  ⟨exec_send o h l s, fun hi => by rw [exec_send, exec_xmit_idle hi, beginFrame_plain_eq_accepted]⟩

/-- Settles O12: the two writes of the tick are W(1) and that of the start condition of the Reset frame. -/
theorem initAccepted : Obligations.InitAccepted := by
  intro s hi
  rw [exec_init_idle hi, beginFrame_init_eq_accepted, resetFrame_eq]
end

section
/-! The events of `INIT`: their number, their duration and their waveform (R161, R162). -/

namespace Sys2Proof.Machine

theorem length_xmitEvents (c : Cfg) (f : Frame) : (xmitEvents c f).length = 68 := by
  simp [xmitEvents, length_bitLoop]

/-- The duration of `INIT` (R162). -/
theorem totalUs_initEvents (c : Cfg) : totalUs (initEvents c) = 17800 + c.settleUs + c.initSettleUs := by
  simp [initEvents, totalUs_append, totalUs_xmitEvents, totalUs]

/-- The last two events of `INIT` are its two delays, each its own event (R162). -/
theorem initEvents_eq_append_delays (c : Cfg) :
    ∃ es : List Event, es.length = 68 ∧ initEvents c = es ++ [.d c.settleUs, .d c.initSettleUs] :=
  ⟨[.w .high] ++ ([.w .low, .d startLowUs] ++ bitLoop 16 (resetFrame c) ++ [.w .high]),
    by simp [length_bitLoop], by simp [initEvents, xmitEvents]⟩

/-- A transmission leaves the line high, and the segments of its waveform with the newest one first. -/
theorem foldl_waveStep_xmitEvents (cur : Level) (c : Cfg) (f : Frame) :
    (xmitEvents c f).foldl waveStep (cur, []) = (.high, (xmitSegments c (loopBits 16 f)).reverse) := by
  refine Prod.ext ?_ ?_
  · simp [xmitEvents]
  · rw [← waveform_xmitEvents cur, waveform, List.reverse_reverse]

/-- A delay after a transmission lengthens its last segment (R12, R162). -/
theorem waveform_xmitEvents_append_delay (initial : Level) (c : Cfg) (f : Frame) {n : Nat} (hn : n ≠ 0) :
    waveform initial (xmitEvents c f ++ [.d n]) =
      (xmitSegments c (loopBits 16 f)).dropLast ++ [(.high, c.settleUs + n)] := by
  rw [waveform, List.foldl_append, foldl_waveStep_xmitEvents, xmitSegments, ← List.cons_append, List.dropLast_concat,
    List.reverse_concat, List.foldl_cons, waveStep_d_same hn, List.foldl_nil, List.reverse_cons, List.reverse_reverse]

/-- The first write of `INIT` takes no time, so it leaves nothing of the initial level (R162). -/
theorem waveform_initEvents (initial : Level) (c : Cfg) :
    waveform initial (initEvents c) = waveform .high (xmitEvents c (resetFrame c) ++ [.d c.initSettleUs]) := by
  rw [initEvents, List.append_assoc, waveform, List.singleton_append, List.foldl_cons, waveStep_w, waveform]

theorem settleUs_bounds (c : Cfg) : 5000 ≤ c.settleUs ∧ c.settleUs ≤ 6000 := by
  rw [settleUs_eq]
  split <;> decide

theorem initSettleUs_bounds (c : Cfg) : 20000 ≤ c.initSettleUs ∧ c.initSettleUs ≤ 50000 :=
  ⟨Nat.le_add_right _ _, initSettleUs_le c⟩

end Sys2Proof.Machine

open Sys2Proof Sys2Proof.Machine

/-- Settles O46: the trace is that of the Reset frame between a write of no time and a delay that lengthens its last
segment. -/
theorem initWaveform : Obligations.InitWaveform := by
  intro c initial
  obtain ⟨hsettle, hsettle'⟩ := settleUs_bounds c
  obtain ⟨hinit, hinit'⟩ := initSettleUs_bounds c
  rw [totalUs_initEvents, ← resetFrame_eq]
  refine ⟨rfl, ?_, rfl, by omega, by omega, ?_⟩
  · simp [initEvents, length_xmitEvents]
  · rw [waveform_initEvents, waveform_xmitEvents_append_delay _ _ _ (by omega), waveform_xmitEvents]
end

section
/-! An `INIT` under any host that drives no hardware reset (R161, R162, R164). -/

namespace Sys2Proof.Machine

/-- A block that makes `n` ticks of a transmission is busy before each of them, whatever the host does short of a
hardware reset (R166). -/
theorem Runs.busy_of_reaches {n m : Nat} {s t u : State} (h : Runs n s t) (hn : NoReset s.script) (hm : m < n)
    (hr : Reaches m s u) : u.regs.busy = true := by
  suffices ∀ script, NoReset script → Reaches m { s with script := script } u → u.regs.busy = true from
    this s.script hn hr
  clear hn hr
  induction h generalizing m with
  | done s => exact absurd hm (Nat.not_lt_zero m)
  | @ticked n s t hb _ ih =>
    intro script hn hr
    cases m with
    | zero =>
      cases hr
      exact decide_eq_true hb
    | succ m =>
      obtain ⟨v, hv, hrest⟩ := reaches_succ_inv hr
      rw [step_busy_eq (s := { s with script := script }) (noReset_rstNow hn) hb, tick_withScript] at hv
      cases hv
      exact ih (Nat.lt_of_succ_lt_succ hm) _ (noReset_scriptNext (s := { s with script := script }) hn) hrest

end Sys2Proof.Machine

open Sys2Proof Sys2Proof.Machine

/-- Settles O51: the ticks of the `INIT` play the events of the event level, and the block is busy in all of them. -/
theorem initRunRefinesEventLevel : Obligations.InitRunRefinesEventLevel := by
  intro s hs hn
  have hruns := runs_init s.clock
  rw [totalUs_initEvents] at hruns
  obtain ⟨script, -, hrun⟩ := hruns.reaches_of_noReset hn
  refine ⟨_, script, exec_init_idle (idle_of_regs_reset hs), ?_, initEvents_eq_append_delays s.cfg,
    fun m u hm hu => hruns.busy_of_reaches hn hm hu⟩
  rw [State.played, totalUs_initEvents, ← hs] at hrun
  exact hrun
end

section
/-! The operations taken in `IDLE` (R181 to R194): each that expands to one `SEND` is accepted with the frame of its
triple. -/

namespace Sys2Proof.Machine

/-- An operation that expands to the `SEND` of a triple is taken in `IDLE` with the frame of the triple (R85, R181). -/
theorem exec_of_expand_sendTriple {i : Instr} {t : Triple} {s : State} (hi : s.regs.phase = .idle)
    (h : expand s.cfg i = [sendTriple t]) : exec i s = .next (s.accepted (tripleBits t) false [.low]) :=
  (pseudoInstructionIsItsExpansion i (sendTriple t) s h).trans ((sendAccepted t.opcode t.dataH t.dataL s).2 hi)

/-- `BIND` in `IDLE` is `INIT`, with its `SETVOL` in front of what the host presents (R194). -/
theorem exec_bind_idle {s : State} (hi : s.regs.phase = .idle) (level : Option Int) :
    exec (.bind level) s = exec .init { s with script := bindTail level ++ s.script } := if_pos hi

end Sys2Proof.Machine

open Sys2Proof Sys2Proof.Machine

/-- Settles O21: each operation of the list expands to the `SEND` of its triple. -/
theorem argumentlessOperations : Obligations.ArgumentlessOperations := by
  intro s i t hi hmem
  refine exec_of_expand_sendTriple hi ?_
  simp only [List.mem_cons, List.not_mem_nil, or_false, Prod.mk.injEq] at hmem
  rcases hmem with ⟨rfl, rfl⟩ | ⟨rfl, rfl⟩ | ⟨rfl, rfl⟩ | ⟨rfl, rfl⟩ | ⟨rfl, rfl⟩ | ⟨rfl, rfl⟩ | ⟨rfl, rfl⟩ |
    ⟨rfl, rfl⟩ | ⟨rfl, rfl⟩ <;> rfl

/-- Settles O22: the frame of the documented triple is `0x6100`. -/
theorem playFrame : Obligations.PlayFrame := by
  intro s hi hplay
  have hframe : tripleBits s.cfg.optable.play = 0x6100 := by rw [hplay]; decide
  rw [← hframe]
  exact exec_of_expand_sendTriple hi rfl

/-- Settles O23: each mode loads the frame of its own triple. -/
theorem playlistModesDiffer : Obligations.PlaylistModesDiffer := by
  intro s hi hmodes
  rw [CfgModesDiffer, tripleFrame_eq_tripleBits, tripleFrame_eq_tripleBits] at hmodes
  exact ⟨_, _, exec_of_expand_sendTriple hi rfl, exec_of_expand_sendTriple hi rfl, hmodes⟩

/-- Settles O24: `BIND` is the `INIT` of a state with the longer script. -/
theorem bindAccepted : Obligations.BindAccepted := fun s hi =>
  ⟨(exec_bind_idle hi none).trans (initAccepted s hi), fun v => (exec_bind_idle hi (some v)).trans (initAccepted _ hi)⟩
end

section
/-! The clamp policies (R195 to R197) and the frames of the operations with an argument (R188 to R190). -/

namespace Sys2Proof.Machine

/-! ### The clamp -/

theorem clamp_eq_max_min (v : Int) {lo hi : Int} (h : lo ≤ hi) : clamp v lo hi = max lo (min v hi) := by
  unfold clamp
  split
  · omega
  · split <;> omega

theorem volMax_eq (c : Cfg) : volMax c = if c.volMax = .ten then 10 else 30 := by
  unfold volMax
  cases c.volMax <;> rfl

theorem volMax_bounds (c : Cfg) : volMin ≤ volMax c ∧ volMax c ≤ 30 := by
  rw [volMax_eq]
  split <;> decide

theorem clampTrack_eq (c : Cfg) (i : Int) :
    clampTrack c i = if c.trackClamp = .clamped then max 0 (min i (c.trackMax : Int)) else i := by
  unfold clampTrack
  cases c.trackClamp with
  | unclamped => rfl
  | clamped => exact clamp_eq_max_min i (Int.natCast_nonneg _)

/-- The data-low byte of `SETVOL v` holds the clamped level, which both volume ranges keep below 256 (R190, R196). -/
theorem volumeTriple_dataL_toNat (c : Cfg) (v : Int) :
    ((volumeTriple c v).dataL.toNat : Int) = max volMin (min v (volMax c)) := by
  obtain ⟨hmin, hmax⟩ := volMax_bounds c
  rw [volumeTriple, clampVolume, clamp_eq_max_min v hmin, BitVec.toNat_ofInt]
  rw [volMin] at hmin ⊢
  omega

/-! ### Frames -/

/-- A frame is the low nibble of its opcode ORed onto the two data bytes (R103). -/
theorem tripleBits_eq_opcode_or_data (o h l : Byte) :
    tripleBits ⟨o, h, l⟩ = (o.extractLsb' 0 4 ++ 0#4 ++ 0#8) ||| (h ++ l) := by
  have hh : h.extractLsb' 4 4 ++ h.extractLsb' 0 4 = h :=
    (BitVec.extractLsb'_append_extractLsb'_eq_extractLsb' rfl).trans BitVec.extractLsb'_eq_self
  calc tripleBits ⟨o, h, l⟩
      = (o.extractLsb' 0 4 ++ 0#4 ++ 0#8) ||| (h.extractLsb' 4 4 ++ h.extractLsb' 0 4 ++ l) := by
        rw [BitVec.or_append, BitVec.or_append, BitVec.zero_or, BitVec.zero_or, tripleBits]
    _ = (o.extractLsb' 0 4 ++ 0#4 ++ 0#8) ||| (h ++ l) := by rw [hh]

/-- In `IDLE` `LOOPTRACK` is taken with its own frame (R189). -/
theorem exec_looptrack_idle {s : State} (hi : s.regs.phase = .idle) (i : Int) :
    exec (.looptrack i) s = .next (s.accepted (loopFrame s.cfg i) false [.low]) :=
  (pseudoInstructionIsItsExpansion (.looptrack i) _ s rfl).trans (exec_xmit_idle hi _)

/-- Inverting one bit of a frame changes that bit and no other (R189). -/
theorem getLsbD_invert_bit_ne_iff (f : Frame) (b : Fin 16) (k : Nat) :
    (f ^^^ (1#16 <<< b.val)).getLsbD k ≠ f.getLsbD k ↔ k = b.val := by
  rw [← BitVec.twoPow_eq, BitVec.getLsbD_xor, BitVec.getLsbD_twoPow]
  cases f.getLsbD k <;> simp [eq_comm (a := k)]

end Sys2Proof.Machine

open Sys2Proof Sys2Proof.Machine

/-- Settles O16: the clamp is a minimum and then a maximum, whose range and monotony it has; the data-low byte of a
volume frame holds the clamped level. -/
theorem clampLaws : Obligations.ClampLaws := by
  refine ⟨fun v w lo hi h => ?_, fun c v => ?_⟩
  · simp only [clamp_eq_max_min _ h]
    refine ⟨?_, ?_, ?_, le_max_left lo _, max_le h (min_le_right v hi), ?_, fun hvw =>
      max_le_max_left lo (min_le_min_right hi hvw)⟩ <;> omega
  · obtain ⟨hmin, -⟩ := volMax_bounds c
    rw [tripleFrame, frameDl_encodeBytes, volumeTriple_dataL_toNat]
    exact ⟨le_max_left _ _, max_le hmin (min_le_right _ _)⟩

/-- Settles O18: the data-low byte is the clamped level, and the opcode `0x04` is ORed onto it. -/
theorem setVolumeFrame : Obligations.SetVolumeFrame := by
  intro v s hi hop
  refine ⟨(volumeTriple s.cfg v).dataL, ?_, ?_⟩
  · rw [volumeTriple_dataL_toNat, volMax_eq, volMin]
  · rw [exec_of_expand_sendTriple hi rfl, volumeTriple, tripleBits_eq_opcode_or_data, hop,
      BitVec.setWidth_eq_append (by decide)]
    rfl

/-- Settles O19: the two index bytes are the low 16 bits of the index, and the opcode `0x03` is ORed onto them. -/
theorem playTrackFrame : Obligations.PlayTrackFrame := by
  intro i s hi hop
  rw [exec_of_expand_sendTriple hi rfl, trackTriple, tripleBits_eq_opcode_or_data, hop, indexHigh_append_indexLow,
    clampTrack_eq]
  rfl

/-- Settles O20: the frame of `LOOPTRACK` is that of `PLAYTRACK` with one bit inverted (the spec's reading, log 15). -/
theorem loopTrackFrame : Obligations.LoopTrackFrame := by
  intro i s hi
  refine ⟨_, _, exec_of_expand_sendTriple hi rfl, exec_looptrack_idle hi i, fun k _ => ?_⟩
  rw [loopFrame, tripleFrame_eq_tripleBits]
  exact getLsbD_invert_bit_ne_iff _ s.cfg.loopBit k
end

section
/-! The configuration in every run (R29) and its two playlist frames (R199). -/

namespace Sys2Proof.Machine

/-- A step leaves the configuration as it is (R29). -/
theorem step_cfg {s t : State} (h : step s = .next t) : t.cfg = s.cfg := (stepFrame s t h).left

/-- A run leaves the configuration as it is (R29). -/
theorem cfg_of_reaches {n : Nat} {s t : State} (h : Reaches n s t) : t.cfg = s.cfg := by
  induction n generalizing s with
  | zero => cases h; rfl
  | succ n ih =>
    obtain ⟨u, hstep, hrest⟩ := reaches_succ_inv h
    exact (ih hrest).trans (step_cfg hstep)

end Sys2Proof.Machine

open Sys2Proof Sys2Proof.Machine

/-- Settles O57: the configuration of every state of the run is that of reset, which has two playlist frames. -/
theorem playlistModesStayApart : Obligations.PlaylistModesStayApart := by
  obtain ⟨-, -, -, -, -, hreset⟩ := resetMeetsTheInvariants
  refine ⟨fun s t hs h => (step_cfg h).symm ▸ hs, fun script n t h => ?_⟩
  have hcfg : t.cfg = State.reset.cfg := cfg_of_reaches (s := { State.reset with script := script }) h
  exact ⟨hcfg, hcfg.symm ▸ hreset⟩
end

section
/-! A step and an instruction always answer a next state (R220). -/

namespace Sys2Proof.Machine

/-- Every instruction has a next state: that of its frame when it sends one, else that of its own arm. -/
theorem exec_answers (i : Instr) (s : State) : ∃ t, exec i s = .next t := by
  cases hf : sentFrame s.cfg i with
  | some f => exact ⟨_, exec_of_sentFrame hf⟩
  | none =>
    cases i with
    | init | reservedCmdKind3 | encode => exact ⟨_, rfl⟩
    | bind level =>
      by_cases hi : s.regs.phase = .idle
      · exact ⟨_, exec_bind_idle hi level⟩
      · exact ⟨_, exec_busy hi nofun⟩
    | _ => cases hf

/-- Every step has a next state, by what the ports carry on its tick. -/
theorem step_answers (s : State) : ∃ t, step s = .next t := by
  cases hr : s.rstNow with
  | true => exact ⟨_, step_rst hr⟩
  | false =>
    cases hp : s.presented with
    | none => exact ⟨_, step_none hr hp⟩
    | some i => rw [step_some hr hp]; exact exec_answers i s.advanceScript

end Sys2Proof.Machine

open Sys2Proof Sys2Proof.Machine

/-- Settles O39: neither a step nor an instruction has another outcome than the next state. -/
theorem nothingEverStops : Obligations.NothingEverStops := ⟨step_answers, exec_answers⟩
end

section
/-! The hardware reset over a port sample (R250). -/

open Sys2Proof Sys2Proof.Machine

/-- Settles O33: `rst` is tested before everything else, so the step is `hardwareReset`, whose whole result is
`hardwareReset_eq`, and the host is left with the lines after the sample. -/
theorem hardwareReset : Obligations.HardwareReset := by
  intro s p rest hs hrst
  have hnext : s.scriptNext = rest := scriptNext_sample hs
  rw [step_rst ((rstNow_sample hs).trans hrst), hardwareReset_eq, State.advanceScript, hnext]
  rfl
end
